-- ==== Sys2Proof/Word.lean ====
section
/-! DEFINITION. The machine's one word: "Word size: 8 bits throughout (registers, memory, data path)" (00_scope.md R5, R7). -/

namespace Sys2Proof

/-- `W8` (00_scope.md R7): every register, the program counter, every program-memory cell and every port value.
Bit 7 is the most significant bit (R6). -/
abbrev W8 := BitVec 8

end Sys2Proof
end

