-- ==== Sys2Proof/Syntax.lean ====
section
/-! DEFINITION. The instructions: one constructor per row of spec/opcode_table.json (30_encoding.md R91). -/

namespace Sys2Proof

/-- The six program-visible registers (10_state.md R20). -/
inductive Reg where
  | r0 | r1 | r2 | r3 | r4 | r5
  deriving DecidableEq, Repr

/-- The register codes of a Copy (10_state.md R21): a register, the I/O port (110), or the undefined code (111). -/
inductive RegCode where
  | reg (r : Reg)
  | port
  | undef
  deriving DecidableEq, Repr

/-- The six defined ALU operations (41_calculate.md R126). -/
inductive AluOp where
  | or | nand | nor | and | add | sub
  deriving DecidableEq, Repr

/-- The eight condition codes (43_condition.md R161). -/
inductive CondCode where
  | never | eq | less | lessEq | always | notEq | greaterEq | greater
  deriving DecidableEq, Repr

/-- An instruction. `v` is the field of format I, 0 to 63 (30_encoding.md R82). `x` is the ignored field, bits 5 to 3
of formats C and J, 0 to 7: no meaning reads it; it is carried so that encoding gives back the very byte (R86, R94;
log 13). The ranges are `Instr.wf` (WellFormed.lean). -/
inductive Instr where
  /-- Immediate (40_immediate.md R120). -/
  | imm (v : Nat)
  /-- Calculate OR (41_calculate.md R127). -/
  | or (x : Nat)
  /-- Calculate NAND (41_calculate.md R128). -/
  | nand (x : Nat)
  /-- Calculate NOR (41_calculate.md R129). -/
  | nor (x : Nat)
  /-- Calculate AND (41_calculate.md R130). -/
  | and (x : Nat)
  /-- Calculate ADD (41_calculate.md R131). -/
  | add (x : Nat)
  /-- Calculate SUB (41_calculate.md R133). -/
  | sub (x : Nat)
  /-- Calculate with the unused operation code 110 (41_calculate.md R132). -/
  | calcUnused6 (x : Nat)
  /-- Calculate with the unused operation code 111 (41_calculate.md R132). -/
  | calcUnused7 (x : Nat)
  /-- Copy from source code `src` to destination code `dst` (42_copy.md R140). -/
  | cp (src dst : RegCode)
  /-- Condition never (43_condition.md R166). -/
  | never (x : Nat)
  /-- Condition eq (43_condition.md R167). -/
  | eq (x : Nat)
  /-- Condition less (43_condition.md R168). -/
  | less (x : Nat)
  /-- Condition less_eq (43_condition.md R169). -/
  | lessEq (x : Nat)
  /-- Condition always (43_condition.md R170). -/
  | always (x : Nat)
  /-- Condition not_eq (43_condition.md R171). -/
  | notEq (x : Nat)
  /-- Condition greater_eq (43_condition.md R172). -/
  | greaterEq (x : Nat)
  /-- Condition greater (43_condition.md R173). -/
  | greater (x : Nat)
  deriving DecidableEq, Repr

/-- The rows of the opcode map (30_encoding.md R91), without operands. -/
inductive Op where
  | imm | or | nand | nor | and | add | sub | calcUnused6 | calcUnused7 | cp
  | never | eq | less | lessEq | always | notEq | greaterEq | greater
  deriving DecidableEq, Repr

/-- The row an instruction belongs to. -/
def Instr.op : Instr → Op
  | .imm _ => .imm
  | .or _ => .or
  | .nand _ => .nand
  | .nor _ => .nor
  | .and _ => .and
  | .add _ => .add
  | .sub _ => .sub
  | .calcUnused6 _ => .calcUnused6
  | .calcUnused7 _ => .calcUnused7
  | .cp _ _ => .cp
  | .never _ => .never
  | .eq _ => .eq
  | .less _ => .less
  | .lessEq _ => .lessEq
  | .always _ => .always
  | .notEq _ => .notEq
  | .greaterEq _ => .greaterEq
  | .greater _ => .greater

/-- The condition code of a Condition instruction; `none` for the other three categories. -/
def Instr.cond? : Instr → Option CondCode
  | .imm _ => none
  | .or _ => none
  | .nand _ => none
  | .nor _ => none
  | .and _ => none
  | .add _ => none
  | .sub _ => none
  | .calcUnused6 _ => none
  | .calcUnused7 _ => none
  | .cp _ _ => none
  | .never _ => some .never
  | .eq _ => some .eq
  | .less _ => some .less
  | .lessEq _ => some .lessEq
  | .always _ => some .always
  | .notEq _ => some .notEq
  | .greaterEq _ => some .greaterEq
  | .greater _ => some .greater

end Sys2Proof
end

