-- ==== Sys2Proof/WellFormed.lean ====
section
/-! DEFINITION. Which terms of `Instr` an encoding exists for (30_encoding.md R82 to R85, R112). -/

namespace Sys2Proof

/-- A format I value fits its six bits (30_encoding.md R82: `v : W6`). -/
def immFits (v : Nat) : Bool := decide (v < 64)

/-- The ignored field fits its three bits (30_encoding.md R83, R85). -/
def ignoredFits (x : Nat) : Bool := decide (x < 8)

/-- The instruction can be encoded: every field is in its range. Register codes are in range by their type. -/
def Instr.wf : Instr → Bool
  | .imm v => immFits v
  | .or x => ignoredFits x
  | .nand x => ignoredFits x
  | .nor x => ignoredFits x
  | .and x => ignoredFits x
  | .add x => ignoredFits x
  | .sub x => ignoredFits x
  | .calcUnused6 x => ignoredFits x
  | .calcUnused7 x => ignoredFits x
  | .cp _ _ => true
  | .never x => ignoredFits x
  | .eq x => ignoredFits x
  | .less x => ignoredFits x
  | .lessEq x => ignoredFits x
  | .always x => ignoredFits x
  | .notEq x => ignoredFits x
  | .greaterEq x => ignoredFits x
  | .greater x => ignoredFits x

end Sys2Proof
end

