-- ==== Sys2Proof/Decode.lean ====
section
/-! DEFINITION. The decoder (30_encoding.md R94), total on every byte, then the encoder (R112) and the opcode map (R91). -/

namespace Sys2Proof

/-! ### Register codes (10_state.md R21) -/

/-- The register code a 3-bit field value names. -/
def RegCode.ofCode : Nat → RegCode
  | 0 => .reg .r0
  | 1 => .reg .r1
  | 2 => .reg .r2
  | 3 => .reg .r3
  | 4 => .reg .r4
  | 5 => .reg .r5
  | 6 => .port
  | _ => .undef

/-- The 3-bit field value of a register code. -/
def RegCode.code : RegCode → Nat
  | .reg .r0 => 0
  | .reg .r1 => 1
  | .reg .r2 => 2
  | .reg .r3 => 3
  | .reg .r4 => 4
  | .reg .r5 => 5
  | .port => 6
  | .undef => 7

/-- The 3-bit field value of a condition code (43_condition.md R161). -/
def CondCode.code : CondCode → Nat
  | .never => 0
  | .eq => 1
  | .less => 2
  | .lessEq => 3
  | .always => 4
  | .notEq => 5
  | .greaterEq => 6
  | .greater => 7

/-! ### Decoding -/

/-- `ir[7:6]`, the category (30_encoding.md R81). -/
def fieldCategory (ir : W8) : Nat := (ir.extractLsb' 6 2).toNat

/-- `ir[5:0]`, the immediate of format I (30_encoding.md R82). -/
def fieldImm (ir : W8) : Nat := (ir.extractLsb' 0 6).toNat

/-- `ir[5:3]`: the source of format M (30_encoding.md R84), ignored in formats C and J (R83, R85). -/
def fieldMid (ir : W8) : Nat := (ir.extractLsb' 3 3).toNat

/-- `ir[2:0]`: operation (30_encoding.md R83), destination (R84) or condition (R85). -/
def fieldLow (ir : W8) : Nat := (ir.extractLsb' 0 3).toNat

/-- Category 01 by its operation code `o` (30_encoding.md R89). -/
def decodeCalculate (o x : Nat) : Instr :=
  match o with
  | 0 => .or x
  | 1 => .nand x
  | 2 => .nor x
  | 3 => .and x
  | 4 => .add x
  | 5 => .sub x
  | 6 => .calcUnused6 x
  | _ => .calcUnused7 x

/-- Category 11 by its condition code `c` (30_encoding.md R89). -/
def decodeCondition (c x : Nat) : Instr :=
  match c with
  | 0 => .never x
  | 1 => .eq x
  | 2 => .less x
  | 3 => .lessEq x
  | 4 => .always x
  | 5 => .notEq x
  | 6 => .greaterEq x
  | _ => .greater x

/-- The decoder of one instruction byte (30_encoding.md R94): total, never fails (R91, R96). -/
def decodeByte (ir : W8) : Instr :=
  match fieldCategory ir with
  | 0 => .imm (fieldImm ir)
  | 1 => decodeCalculate (fieldLow ir) (fieldMid ir)
  | 2 => .cp (RegCode.ofCode (fieldMid ir)) (RegCode.ofCode (fieldLow ir))
  | _ => decodeCondition (fieldLow ir) (fieldMid ir)

/-- Why no instruction is read from a list of bytes. No byte is illegal (30_encoding.md R96), so the only reason is
that there is no byte. -/
inductive DecodeReject where
  | noByte
  deriving DecidableEq, Repr

/-- The instruction at the head of a list of bytes, and the bytes after it: every instruction is one byte
(30_encoding.md R80). -/
def decode : List W8 → Except DecodeReject (Instr × List W8)
  | [] => .error .noByte
  | ir :: rest => .ok (decodeByte ir, rest)

/-! ### Encoding -/

/-- The byte of a category-01 or category-11 instruction: base, ignored field, operation or condition code
(30_encoding.md R83, R85, R93). -/
def encodeFields (base x code : Nat) : W8 := BitVec.ofNat 8 (base + 8 * x + code)

/-- The byte of an instruction (30_encoding.md R82 to R85, R112). -/
def encodeByte : Instr → W8
  | .imm v => BitVec.ofNat 8 v
  | .or x => encodeFields 64 x 0
  | .nand x => encodeFields 64 x 1
  | .nor x => encodeFields 64 x 2
  | .and x => encodeFields 64 x 3
  | .add x => encodeFields 64 x 4
  | .sub x => encodeFields 64 x 5
  | .calcUnused6 x => encodeFields 64 x 6
  | .calcUnused7 x => encodeFields 64 x 7
  | .cp s d => encodeFields 128 s.code d.code
  | .never x => encodeFields 192 x 0
  | .eq x => encodeFields 192 x 1
  | .less x => encodeFields 192 x 2
  | .lessEq x => encodeFields 192 x 3
  | .always x => encodeFields 192 x 4
  | .notEq x => encodeFields 192 x 5
  | .greaterEq x => encodeFields 192 x 6
  | .greater x => encodeFields 192 x 7

/-- The words of an instruction: one byte (30_encoding.md R80). -/
def encode (i : Instr) : List W8 := [encodeByte i]

/-! ### The opcode map -/

/-- One row of the opcode map (30_encoding.md R91, R95): a byte `b` is the row's instruction when
`b &&& mask = bits`. -/
structure OpRow where
  op : Op
  mask : W8
  bits : W8
  deriving DecidableEq, Repr

/-- Rows of category 00 and 10: two fixed bits. -/
def wideRows : List OpRow :=
  [⟨.imm, 0xC0, 0x00⟩, ⟨.cp, 0xC0, 0x80⟩]

/-- Rows of category 01. -/
def calculateRows : List OpRow :=
  [⟨.or, 0xC7, 0x40⟩, ⟨.nand, 0xC7, 0x41⟩, ⟨.nor, 0xC7, 0x42⟩, ⟨.and, 0xC7, 0x43⟩,
   ⟨.add, 0xC7, 0x44⟩, ⟨.sub, 0xC7, 0x45⟩, ⟨.calcUnused6, 0xC7, 0x46⟩, ⟨.calcUnused7, 0xC7, 0x47⟩]

/-- Rows of category 11. -/
def conditionRows : List OpRow :=
  [⟨.never, 0xC7, 0xC0⟩, ⟨.eq, 0xC7, 0xC1⟩, ⟨.less, 0xC7, 0xC2⟩, ⟨.lessEq, 0xC7, 0xC3⟩,
   ⟨.always, 0xC7, 0xC4⟩, ⟨.notEq, 0xC7, 0xC5⟩, ⟨.greaterEq, 0xC7, 0xC6⟩, ⟨.greater, 0xC7, 0xC7⟩]

/-- The eighteen rows of 30_encoding.md R91. -/
def opcodeRows : List OpRow := wideRows ++ calculateRows ++ conditionRows

/-- The byte is an instruction of the row. -/
def OpRow.matches (r : OpRow) (b : W8) : Bool := b &&& r.mask == r.bits

/-! ### The opcode table's numbering -/

/-- The instruction byte whose bits are `w`, as spec/opcode_table.json numbers them; bits from `nbits` on are 0. -/
def tableByte (nbits w : Nat) : W8 := BitVec.ofNat 8 (w % 2 ^ nbits)

/-- What the decoder reads from the instruction whose bits are `w`. -/
def decodeTableWord (nbits w : Nat) : Option Instr :=
  match decode [tableByte nbits w] with
  | .ok (i, _) => some i
  | .error _ => none

end Sys2Proof
end

