-- ==== Sys2Proof/Config.lean ====
section
/-! DEFINITION. The parameters of 00_scope.md R5 that are fixed for this model, and the free values. -/

namespace Sys2Proof

/-- The two values of the parameter SRC7 (10_state.md R28, 42_copy.md R146): what a Copy reads from source code 111. -/
inductive Src7 where
  /-- It reads 0x00: the spec's default (D4, log 6). -/
  | zero
  /-- It reads an arbitrary byte, drawn afresh at every such read: the formal guarantee alone. -/
  | draw
  deriving DecidableEq, Repr

/-- RESET_PC (10_state.md R45, decision D1; log 1). -/
def Config.resetPc : W8 := 0x00

/-- PC_WRAP (10_state.md R33, decision D3; log 3): the successor of `pc = 0xFF`. -/
def Config.pcWrap : W8 := 0x00

/-- SRC7 at reset (00_scope.md R5: default `zero`, decision D4; log 6). -/
def Config.src7Default : Src7 := .zero

/-- FREE VALUE. INPUT (10_state.md R40): the environment's answer to the k-th input-port read since reset, for a read
beyond the answers the run's `inputs` lists (log 8). Nothing constrains it. -/
opaque Config.input : Nat → W8

/-- FREE VALUE. The n-th byte drawn "under no law" (41_calculate.md R132 `draw_R3`, 42_copy.md R146 `draw`; log 9).
Nothing constrains its value. DESIGN CHOICE, unsafe (log 9): it is one function, so the n-th draw of one run equals the
n-th draw of another; the spec relates no two draws. -/
opaque Config.draw : Nat → W8

end Sys2Proof
end

