-- ==== Sys2Proof/Machine/State.lean ====
section
/-! DEFINITION. The state (10_state.md R44), the reasons to stop, and the state after reset (R45 to R47). -/

namespace Sys2Proof.Machine

/-- One event of the I/O history (10_state.md R42). -/
inductive IoEvent where
  /-- `In(v)`: an input-port read that yielded `v`. -/
  | input (v : W8)
  /-- `Out(v)`: an output-port write of `v`. -/
  | output (v : W8)
  deriving DecidableEq, Repr

/-- Program memory (10_state.md R37): the bytes the host has set, by address, addresses strictly rising
(`Memory.wf`). An address that is not listed holds no value the spec gives (20_memory.md R56; log 4). -/
abbrev Memory := List Host.Cell

/-- The machine's state (10_state.md R44), the run's parameters that are data, and the model's own counter. -/
structure State where
  /-- R0: Immediate target, jump address (10_state.md R22). -/
  r0 : W8
  /-- R1: ALU input A (10_state.md R23). -/
  r1 : W8
  /-- R2: ALU input B (10_state.md R24). -/
  r2 : W8
  /-- R3: ALU output, condition register (10_state.md R25). -/
  r3 : W8
  /-- R4: general purpose (10_state.md R26). -/
  r4 : W8
  /-- R5: general purpose (10_state.md R26). -/
  r5 : W8
  /-- The program counter (10_state.md R30). -/
  pc : W8
  /-- The I/O history, in execution order (10_state.md R42). -/
  io : List IoEvent
  /-- The program memory, PROG (10_state.md R37, 20_memory.md R53; log 5). -/
  prog : Memory
  /-- The parameter SRC7 of the run (42_copy.md R146; log 6). No step writes it. -/
  src7 : Src7
  /-- The listed beginning of the parameter INPUT of the run (10_state.md R40; log 8). No step writes it. -/
  inputs : List W8
  /-- THE MODEL'S OWN: how many free bytes have been drawn (log 9). -/
  draws : Nat
  deriving DecidableEq, Repr

/-- Why the machine stops with a fault. The hardware has no fault (60_exceptions.md R200); this is the model's own stop
(d) of 60_exceptions.md R201. -/
inductive Fault where
  /-- Raised by `step` when the program memory lists no byte at `pc`: the host has not set it and the spec gives it no
  value (20_memory.md R56; log 4). Safe: the hardware executes some instruction there. -/
  | fetchUnset (addr : W8)
  deriving DecidableEq, Repr

/-- Why an instruction is refused. Every instruction of the opcode table has a meaning. -/
inductive Refusal where
  /-- Raised by `exec` for an instruction that has no meaning in the model yet: by none. Safe. -/
  | notModelled (mnemonic : String)
  deriving DecidableEq, Repr

/-- The state right after reset of a machine whose host has loaded `prog`, for any six register bytes: the spec leaves
them unspecified (10_state.md R45, R46 and R47, 70_reset_and_hazards.md R230 and R232 (a); log 1, log 2). -/
def State.launch (prog : Memory) (inputs : List W8) (src7 : Src7) (r0 r1 r2 r3 r4 r5 : W8) : State :=
  { r0 := r0, r1 := r1, r2 := r2, r3 := r3, r4 := r4, r5 := r5,
    pc := Config.resetPc, io := [], prog := prog, src7 := src7, inputs := inputs, draws := 0 }

/-- The machine right after reset, no program loaded. The spec gives R0 to R5 no value; the model names zero
(DESIGN CHOICE, unsafe, log 2), and no statement rests on it. -/
def State.reset : State := State.launch [] [] Config.src7Default 0 0 0 0 0 0

end Sys2Proof.Machine
end

