-- ==== Sys2Proof/Machine/Alu.lean ====
section
/-! DEFINITION. The ALU function (41_calculate.md R126). -/

namespace Sys2Proof.Machine

/-- `alu(o, a, b)` by the table of 41_calculate.md R126; addition and subtraction are modulo 256 (R135). -/
def alu (o : AluOp) (a b : W8) : W8 :=
  match o with
  | .or => a ||| b
  | .nand => ~~~(a &&& b)
  | .nor => ~~~(a ||| b)
  | .and => a &&& b
  | .add => a + b
  | .sub => a - b

end Sys2Proof.Machine
end

