-- ==== Sys2Proof/Machine/Ops.lean ====
section
/-! DEFINITION. The named operations over memory, registers, the program counter, the ports and the free bytes.
There is no operation that takes an exception and none that returns from one: the machine has neither
(60_exceptions.md R200, R204, R205). -/

namespace Sys2Proof.Machine

/-! ### Program memory (20_memory.md R52, R55, R56) -/

/-- The byte at an address, if the host has set it. -/
def Memory.readAt (m : Memory) (a : Nat) : Option W8 :=
  match m with
  | [] => none
  | (k, v) :: rest => if k = a then some v else Memory.readAt rest a

/-- `MemRead(a, 1)` (20_memory.md R52): every `W8` is an address. -/
def Memory.read (m : Memory) (a : W8) : Option W8 := m.readAt a.toNat

/-- The list with the byte at an address set, in rising order. -/
def Memory.writeAt (m : Memory) (a : Nat) (b : W8) : Memory :=
  match m with
  | [] => [(a, b)]
  | (k, v) :: rest =>
    if a < k then (a, b) :: (k, v) :: rest
    else if a = k then (a, b) :: rest
    else (k, v) :: Memory.writeAt rest a b

/-- The host sets a byte, before the run (70_reset_and_hazards.md R237). No instruction writes memory
(20_memory.md R53). -/
def Memory.write (m : Memory) (a b : W8) : Memory := m.writeAt a.toNat b

/-- Canonical from an address on: addresses rise strictly, and lie below 256. -/
def Memory.wfFrom (lo : Nat) : Memory → Bool
  | [] => true
  | (k, _) :: rest => decide (lo ≤ k) && decide (k < 256) && Memory.wfFrom (k + 1) rest

/-- The canonical form: addresses strictly rising, all in the address space 0 to 255 (20_memory.md R55). An unlisted
address holds no value, so no entry can repeat it. -/
def Memory.wf (m : Memory) : Bool := Memory.wfFrom 0 m

/-- Bytes at consecutive addresses from `a` on. -/
def Memory.place (a : Nat) : List W8 → Memory
  | [] => []
  | b :: bs => (a, b) :: Memory.place (a + 1) bs

/-- The image the host loads: the program's bytes at consecutive addresses from 0 (30_encoding.md R101,
70_reset_and_hazards.md R237). DESIGN CHOICE, unsafe (log 17): of a program of more than 256 bytes the first 256 are
loaded and the others dropped; the spec leaves open the longest program the assembler accepts (R111). -/
def Memory.ofBytes (bs : List W8) : Memory := Memory.place 0 (bs.take 256)

/-! ### Registers (00_scope.md R9) -/

/-- `x[i]`, reading register R`i`. -/
def State.reg (s : State) : Reg → W8
  | .r0 => s.r0
  | .r1 => s.r1
  | .r2 => s.r2
  | .r3 => s.r3
  | .r4 => s.r4
  | .r5 => s.r5

/-- `x[i] <- v`, writing register R`i`: all eight bits, and nothing else (42_copy.md R142). -/
def State.setReg (s : State) (r : Reg) (v : W8) : State :=
  match r with
  | .r0 => { s with r0 := v }
  | .r1 => { s with r1 := v }
  | .r2 => { s with r2 := v }
  | .r3 => { s with r3 := v }
  | .r4 => { s with r4 := v }
  | .r5 => { s with r5 := v }

/-! ### Program counter (10_state.md R30 to R33) -/

/-- The successor of an address: one more, and PC_WRAP after 0xFF (10_state.md R32, R33; log 3). -/
def nextPc (p : W8) : W8 := if p = 0xFF then Config.pcWrap else p + 1

/-- `pc <- (pc + 1) mod 256`. -/
def State.advance (s : State) : State := { s with pc := nextPc s.pc }

/-- `pc <- target`: absolute, all eight bits (43_condition.md R163). -/
def State.jump (s : State) (target : W8) : State := { s with pc := target }

/-- The instruction byte at `pc`, if the host has set it (10_state.md R31, 20_memory.md R52). -/
def State.fetch (s : State) : Option W8 := s.prog.read s.pc

/-! ### Ports (00_scope.md R11, 10_state.md R40 to R42) -/

/-- The bytes read from the input port, in order. -/
def ioInputs : List IoEvent → List W8
  | [] => []
  | .input v :: rest => v :: ioInputs rest
  | .output _ :: rest => ioInputs rest

/-- The bytes written to the output port, in order. -/
def ioOutputs : List IoEvent → List W8
  | [] => []
  | .input _ :: rest => ioOutputs rest
  | .output v :: rest => v :: ioOutputs rest

/-- `INPUT(k)` (10_state.md R40): the k-th listed answer of the run, and beyond the list a free value (log 8). -/
def State.inputValue (s : State) (k : Nat) : W8 :=
  match s.inputs[k]? with
  | some v => v
  | none => Config.input k

/-- How many input-port reads the run has made: the next one is the k-th, from 0 (10_state.md R40). -/
def State.inputCount (s : State) : Nat := (ioInputs s.io).length

/-- The byte the next input-port read yields. -/
def State.nextInput (s : State) : W8 := s.inputValue s.inputCount

/-- `InRead()`: one read event, always completes (10_state.md R40, 20_memory.md R54). -/
def inRead (s : State) : W8 × State := (s.nextInput, { s with io := s.io ++ [.input s.nextInput] })

/-- `OutWrite(v)`: one write event; the machine keeps no copy of it (10_state.md R41). -/
def outWrite (v : W8) (s : State) : State := { s with io := s.io ++ [.output v] }

/-! ### Free bytes -/

/-- A byte drawn under no law, fresh at each draw (41_calculate.md R132, 42_copy.md R146; log 9). DESIGN CHOICE, unsafe
(log 9): states with equal `draws` draw the same byte, so the n-th draw of one run equals the n-th of another. -/
def drawByte (s : State) : W8 × State := (Config.draw s.draws, { s with draws := s.draws + 1 })

end Sys2Proof.Machine
end

