-- ==== Sys2Proof/Machine/Calculate.lean ====
section
/-! DEFINITION. The Calculate instructions (41_calculate.md). -/

namespace Sys2Proof.Machine

/-- What the six defined Calculates share (41_calculate.md R125): `x[3] <- alu(o, x[1], x[2])`, then the next
address. -/
def calculate (o : AluOp) (s : State) : State :=
  (s.setReg .r3 (alu o (s.reg .r1) (s.reg .r2))).advance

/-- What the two unused operation codes share (41_calculate.md R132): `x[3] <- UNSPECIFIED`, a free value, then the
next address. The model takes CALC_EXT = draw_R3 (log 7). -/
def calculateUnused (s : State) : State :=
  ((drawByte s).2.setReg .r3 (drawByte s).1).advance

/-- OR (41_calculate.md R127). -/
def execOr (s : State) : Host.Outcome State Fault Refusal := .next (calculate .or s)

/-- NAND (41_calculate.md R128). -/
def execNand (s : State) : Host.Outcome State Fault Refusal := .next (calculate .nand s)

/-- NOR (41_calculate.md R129). -/
def execNor (s : State) : Host.Outcome State Fault Refusal := .next (calculate .nor s)

/-- AND (41_calculate.md R130). -/
def execAnd (s : State) : Host.Outcome State Fault Refusal := .next (calculate .and s)

/-- ADD (41_calculate.md R131). -/
def execAdd (s : State) : Host.Outcome State Fault Refusal := .next (calculate .add s)

/-- SUB (41_calculate.md R133). -/
def execSub (s : State) : Host.Outcome State Fault Refusal := .next (calculate .sub s)

/-- Operation code 110 (41_calculate.md R132). -/
def execCalcUnused6 (s : State) : Host.Outcome State Fault Refusal := .next (calculateUnused s)

/-- Operation code 111 (41_calculate.md R132). -/
def execCalcUnused7 (s : State) : Host.Outcome State Fault Refusal := .next (calculateUnused s)

end Sys2Proof.Machine
end

