-- ==== Sys2Proof/Machine/Flags.lean ====
section
/-! DEFINITION. The machine has no flags (10_state.md R35). The part of flags is played by two tests of R3, made when a
Condition executes (43_condition.md R161). -/

namespace Sys2Proof.Machine

/-- The two's complement reading of a byte (00_scope.md R7). -/
def signed (v : W8) : Int := if v.toNat ≤ 127 then (v.toNat : Int) else (v.toNat : Int) - 256

/-- `Z` (43_condition.md R161): all eight bits are zero. -/
def isZero (r : W8) : Bool := r == 0

/-- `N` (43_condition.md R161): bit 7 is set. -/
def isNegative (r : W8) : Bool := r.getLsbD 7

/-- `holds(c, r)` by the table of 43_condition.md R161. -/
def holds (c : CondCode) (r : W8) : Bool :=
  match c with
  | .never => false
  | .eq => isZero r
  | .less => isNegative r
  | .lessEq => isZero r || isNegative r
  | .always => true
  | .notEq => !isZero r
  | .greaterEq => !isNegative r
  | .greater => !isZero r && !isNegative r

end Sys2Proof.Machine
end

