-- ==== Sys2Proof/Machine/Condition.lean ====
section
/-! DEFINITION. The Condition instructions (43_condition.md). -/

namespace Sys2Proof.Machine

/-- What the eight Conditions share (43_condition.md R160): if the test of R3 holds the program counter is loaded from
R0, else it goes to the next address. -/
def condition (c : CondCode) (s : State) : State :=
  if holds c (s.reg .r3) then s.jump (s.reg .r0) else s.advance

/-- never (43_condition.md R166). -/
def execNever (s : State) : Host.Outcome State Fault Refusal := .next (condition .never s)

/-- eq (43_condition.md R167). -/
def execEq (s : State) : Host.Outcome State Fault Refusal := .next (condition .eq s)

/-- less (43_condition.md R168). -/
def execLess (s : State) : Host.Outcome State Fault Refusal := .next (condition .less s)

/-- less_eq (43_condition.md R169). -/
def execLessEq (s : State) : Host.Outcome State Fault Refusal := .next (condition .lessEq s)

/-- always (43_condition.md R170). -/
def execAlways (s : State) : Host.Outcome State Fault Refusal := .next (condition .always s)

/-- not_eq (43_condition.md R171). -/
def execNotEq (s : State) : Host.Outcome State Fault Refusal := .next (condition .notEq s)

/-- greater_eq (43_condition.md R172). -/
def execGreaterEq (s : State) : Host.Outcome State Fault Refusal := .next (condition .greaterEq s)

/-- greater (43_condition.md R173). -/
def execGreater (s : State) : Host.Outcome State Fault Refusal := .next (condition .greater s)

end Sys2Proof.Machine
end

