-- ==== Sys2Proof/Machine/Operands.lean ====
section
/-! DEFINITION. The two operand functions of Copy (42_copy.md R141, R142). No other instruction has operands
(30_encoding.md R88, R90). -/

namespace Sys2Proof.Machine

/-- `SRC7_value()` (42_copy.md R146): zero, or a byte drawn afresh. -/
def readUndef (s : State) : W8 × State :=
  match s.src7 with
  | .zero => (0x00, s)
  | .draw => drawByte s

/-- `SrcRead(code)` (42_copy.md R141): the value read, and the state after the read. -/
def srcRead (c : RegCode) (s : State) : W8 × State :=
  match c with
  | .reg r => (s.reg r, s)
  | .port => inRead s
  | .undef => readUndef s

/-- `DST7_action(v)` with `DST7 = discard` (42_copy.md R147, decision D5; log 10): nothing. -/
def dst7Action (_v : W8) (s : State) : State := s

/-- `DstWrite(code, v)` (42_copy.md R142). -/
def dstWrite (c : RegCode) (v : W8) (s : State) : State :=
  match c with
  | .reg r => s.setReg r v
  | .port => outWrite v s
  | .undef => dst7Action v s

end Sys2Proof.Machine
end

