-- ==== Sys2Proof/Machine/Copy.lean ====
section
/-! DEFINITION. The Copy instruction (42_copy.md). -/

namespace Sys2Proof.Machine

/-- Copy (42_copy.md R140): the source is read, then the destination is written with the value read, then the next
address. -/
def execCp (src dst : RegCode) (s : State) : Host.Outcome State Fault Refusal :=
  .next ((dstWrite dst (srcRead src s).1 (srcRead src s).2).advance)

end Sys2Proof.Machine
end

