-- ==== Sys2Proof/Machine/Immediate.lean ====
section
/-! DEFINITION. The Immediate instruction (40_immediate.md). -/

namespace Sys2Proof.Machine

/-- Immediate (40_immediate.md R120): `x[0] <- zext_8(v)`, then the next address. -/
def execImm (v : Nat) (s : State) : Host.Outcome State Fault Refusal :=
  .next ((s.setReg .r0 (BitVec.ofNat 8 v)).advance)

end Sys2Proof.Machine
end

