-- ==== Sys2Proof/Machine/Dispatch.lean ====
section
/-! DEFINITION. One arm per instruction (10_state.md R31). -/

namespace Sys2Proof.Machine

/-- The meaning of an instruction. -/
def exec (i : Instr) (s : State) : Host.Outcome State Fault Refusal :=
  match i with
  | .imm v => Sys2Proof.Machine.execImm v s
  | .or _ => Sys2Proof.Machine.execOr s
  | .nand _ => Sys2Proof.Machine.execNand s
  | .nor _ => Sys2Proof.Machine.execNor s
  | .and _ => Sys2Proof.Machine.execAnd s
  | .add _ => Sys2Proof.Machine.execAdd s
  | .sub _ => Sys2Proof.Machine.execSub s
  | .calcUnused6 _ => Sys2Proof.Machine.execCalcUnused6 s
  | .calcUnused7 _ => Sys2Proof.Machine.execCalcUnused7 s
  | .cp src dst => Sys2Proof.Machine.execCp src dst s
  | .never _ => Sys2Proof.Machine.execNever s
  | .eq _ => Sys2Proof.Machine.execEq s
  | .less _ => Sys2Proof.Machine.execLess s
  | .lessEq _ => Sys2Proof.Machine.execLessEq s
  | .always _ => Sys2Proof.Machine.execAlways s
  | .notEq _ => Sys2Proof.Machine.execNotEq s
  | .greaterEq _ => Sys2Proof.Machine.execGreaterEq s
  | .greater _ => Sys2Proof.Machine.execGreater s

end Sys2Proof.Machine
end

