-- ==== Sys2Proof/Machine/Step.lean ====
section
/-! DEFINITION. The instruction cycle (10_state.md R31). -/

namespace Sys2Proof.Machine

/-- One step: fetch the byte at `pc`, decode it, execute it. The only stop is a byte the host has not set (log 4). -/
def step (s : State) : Host.Outcome State Fault Refusal :=
  match s.fetch with
  | some ir => exec (decodeByte ir) s
  | none => .fault (.fetchUnset s.pc)

/-- The state with the instruction whose bits are `w` stored where the next step fetches: at `pc`. -/
def State.withFetchWord (s : State) (nbits w : Nat) : State :=
  { s with prog := s.prog.write s.pc (tableByte nbits w) }

end Sys2Proof.Machine
end

