-- ==== Sys2Proof/Machine/Assembler.lean ====
section
/-! DEFINITION. The assembler's constant-and-OR expressions (30_encoding.md R101 to R110), as data. Source text (case,
number bases, label definitions, comments) is not fixed by the spec (R111; log 14). -/

namespace Sys2Proof.Machine

/-- The constant names of 30_encoding.md R106. DESIGN CHOICE (log 14): they are predefined, in force in every program
without a `const` line; R111 leaves open whether the programmer must type them in. -/
inductive AsmConst where
  | r0 | r1 | r2 | r3 | r4 | r5
  | cp
  | s0 | s1 | s2 | s3 | s4 | s5 | sin
  | d0 | d1 | d2 | d3 | d4 | d5 | dout
  | or | nand | nor | and | add | sub
  | never | eq | less | lessEq | always | notEq | greaterEq | greater
  deriving DecidableEq, Repr

/-- The value a name of 30_encoding.md R106 stands for. -/
def AsmConst.value : AsmConst → Nat
  | .r0 => 0
  | .r1 => 1
  | .r2 => 2
  | .r3 => 3
  | .r4 => 4
  | .r5 => 5
  | .cp => 128
  | .s0 => 0
  | .s1 => 8
  | .s2 => 16
  | .s3 => 24
  | .s4 => 32
  | .s5 => 40
  | .sin => 48
  | .d0 => 0
  | .d1 => 1
  | .d2 => 2
  | .d3 => 3
  | .d4 => 4
  | .d5 => 5
  | .dout => 6
  | .or => 64
  | .nand => 65
  | .nor => 66
  | .and => 67
  | .add => 68
  | .sub => 69
  | .never => 192
  | .eq => 193
  | .less => 194
  | .lessEq => 195
  | .always => 196
  | .notEq => 197
  | .greaterEq => 198
  | .greater => 199

/-- A byte expression (30_encoding.md R101): a number (also the value of a constant the programmer defines, R102), a
name of R106 (predefined: DESIGN CHOICE, log 14), a label by its address (R104), or two expressions joined by `|`
(R103). -/
inductive AsmExpr where
  | num (n : Nat)
  | name (c : AsmConst)
  | label (addr : W8)
  | join (a b : AsmExpr)
  deriving DecidableEq, Repr

/-- The value of an expression; `|` is bitwise OR (30_encoding.md R103). -/
def AsmExpr.value : AsmExpr → Nat
  | .num n => n
  | .name c => c.value
  | .label addr => addr.toNat
  | .join a b => a.value ||| b.value

/-- Why an expression assembles to no byte: "What the assembler does with a number above 255 is not stated"
(30_encoding.md R105). -/
inductive AsmReject where
  | valueAbove255 (n : Nat)
  deriving DecidableEq, Repr

/-- The byte of one source line (30_encoding.md R101). -/
def assembleExpr (e : AsmExpr) : Except AsmReject W8 :=
  if e.value < 256 then .ok (BitVec.ofNat 8 e.value) else .error (.valueAbove255 e.value)

/-- The bytes of a program, one per source line, in order (30_encoding.md R101). DESIGN CHOICE (log 17): any length is
accepted; the spec leaves the maximum open (R111). -/
def assemble : List AsmExpr → Except AsmReject (List W8)
  | [] => .ok []
  | e :: rest =>
    match assembleExpr e, assemble rest with
    | .ok b, .ok bs => .ok (b :: bs)
    | .error r, _ => .error r
    | .ok _, .error r => .error r

/-- The source constant of a register code; code 111 has none (30_encoding.md R106, R107). -/
def srcConst? : RegCode → Option AsmConst
  | .reg .r0 => some .s0
  | .reg .r1 => some .s1
  | .reg .r2 => some .s2
  | .reg .r3 => some .s3
  | .reg .r4 => some .s4
  | .reg .r5 => some .s5
  | .port => some .sin
  | .undef => none

/-- The destination constant of a register code; code 111 has none (30_encoding.md R106, R107). -/
def dstConst? : RegCode → Option AsmConst
  | .reg .r0 => some .d0
  | .reg .r1 => some .d1
  | .reg .r2 => some .d2
  | .reg .r3 => some .d3
  | .reg .r4 => some .d4
  | .reg .r5 => some .d5
  | .port => some .dout
  | .undef => none

end Sys2Proof.Machine
end

