-- ==== Sys2Proof/Safety.lean ====
section
/-! DEFINITION. What counts as a safe run, in the terms the claims use. -/

namespace Sys2Proof.Safety

open Sys2Proof.Machine

/-- The image is total, as 20_memory.md R56 (decision D9) has it: every address holds a byte. -/
def ImageComplete (m : Memory) : Prop := ∀ a : W8, ∃ b, m.read a = some b

/-- The bytes read so far are INPUT(0), INPUT(1), ... in order (10_state.md R40). -/
abbrev OracleHistory (s : State) : Prop :=
  ioInputs s.io = (List.range s.inputCount).map s.inputValue

/-- What every step keeps: program memory is canonical, and the history's input reads are the oracle's answers in
order. -/
structure MachineInv (s : State) : Prop where
  progWf : s.prog.wf = true
  oracle : OracleHistory s

/-- The machine stands at the head of a parking loop (44_idioms.md R185): at an address `a` of 0 to 63 memory holds
`a` (the Immediate a) and then 196 (`always`), and `pc` is `a`. The spec recommends it as the end of a run
(decision D10; log 12); no step depends on it. -/
abbrev ParkedAt (a : W8) (s : State) : Prop :=
  a.toNat < 64 ∧ s.prog.read a = some a ∧ s.prog.read (a + 1) = some 196 ∧ s.pc = a

/-- The machine is in a parking loop at `a` (44_idioms.md R185): both bytes are in memory, and it stands at `a`, or at
`a + 1` with R0 holding `a`. -/
abbrev InParkingLoop (a : W8) (s : State) : Prop :=
  a.toNat < 64 ∧ s.prog.read a = some a ∧ s.prog.read (a + 1) = some 196 ∧ (s.pc = a ∨ s.pc = a + 1 ∧ s.r0 = a)

/-- Every register but those listed holds what it held before. -/
def RegsKept (written : List Reg) (s t : State) : Prop := ∀ r, r ∉ written → t.reg r = s.reg r

/-- Every byte of memory, and every parameter of the run, is what it was before (20_memory.md R53). -/
def RunKept (s t : State) : Prop :=
  (∀ a, t.prog.read a = s.prog.read a) ∧ t.src7 = s.src7 ∧ t.inputs = s.inputs

end Sys2Proof.Safety
end

