-- ==== Sys2Proof/Certificates/Slice0/Obligations.lean ====
section
/-! DEFINITION. The statements for the provers. -/

open Sys2Proof Sys2Proof.Machine Sys2Proof.Safety

/-! ### Encoding -/

/-- 30_encoding.md R112: the encoding table, and `decode(encode(i)) = i` for every well-formed instruction, with any
bytes after it. -/
def Obligations.EncodeTableAndDecodeOfEncode : Prop :=
  (∀ v, v < 64 → encodeByte (.imm v) = BitVec.ofNat 8 v) ∧
  encodeByte (.or 0) = 64 ∧ encodeByte (.nand 0) = 65 ∧ encodeByte (.nor 0) = 66 ∧
  encodeByte (.and 0) = 67 ∧ encodeByte (.add 0) = 68 ∧ encodeByte (.sub 0) = 69 ∧
  (∀ s d, s < 8 → d < 8 →
    encodeByte (.cp (RegCode.ofCode s) (RegCode.ofCode d)) = BitVec.ofNat 8 (128 + 8 * s + d)) ∧
  (∀ c, c < 8 → encodeByte (decodeCondition c 0) = BitVec.ofNat 8 (192 + c)) ∧
  (∀ i rest, i.wf = true → decode (encode i ++ rest) = .ok (i, rest))

/-- 30_encoding.md R94, its last sentence (a model that carries bits 5 to 3 has `encode(decode(ir)) = ir`): what is
decoded is well formed and encodes back to the very bytes, and only the empty list is rejected. That the model carries
the ignored bits is its choice (log 13). -/
def Obligations.EncodeOfDecodeIsTheBytes : Prop :=
  (∀ bs i rest, decode bs = .ok (i, rest) → encode i ++ rest = bs ∧ i.wf = true) ∧
  (∀ bs e, decode bs = .error e ↔ bs = [] ∧ e = .noByte)

/-- 30_encoding.md R91: the eighteen rows are pairwise disjoint and together match all 256 bytes; the decoder answers
the one row that matches. -/
def Obligations.EveryByteMatchesExactlyItsRow : Prop :=
  opcodeRows.length = 18 ∧
  ∀ b : W8, (opcodeRows.filter (·.matches b)).map (·.op) = [(decodeByte b).op]

/-- 30_encoding.md R94, the decoder as a total function, written with the match and mask of R91 and the register codes
of 10_state.md R21; the ignored field is carried beside. -/
def Obligations.DecodeIsTheSpecsTable : Prop :=
  ∀ b : W8, let x := ((b >>> 3) &&& 7).toNat
    (b &&& 0xC0 = 0x00 → decodeByte b = .imm (b &&& 0x3F).toNat) ∧
    (b &&& 0xC7 = 0x40 → decodeByte b = .or x) ∧
    (b &&& 0xC7 = 0x41 → decodeByte b = .nand x) ∧
    (b &&& 0xC7 = 0x42 → decodeByte b = .nor x) ∧
    (b &&& 0xC7 = 0x43 → decodeByte b = .and x) ∧
    (b &&& 0xC7 = 0x44 → decodeByte b = .add x) ∧
    (b &&& 0xC7 = 0x45 → decodeByte b = .sub x) ∧
    (b &&& 0xC7 = 0x46 → decodeByte b = .calcUnused6 x) ∧
    (b &&& 0xC7 = 0x47 → decodeByte b = .calcUnused7 x) ∧
    (b &&& 0xC0 = 0x80 → ∃ c d, decodeByte b = .cp c d ∧
      [.reg .r0, .reg .r1, .reg .r2, .reg .r3, .reg .r4, .reg .r5, .port, .undef][x]? = some c ∧
      [.reg .r0, .reg .r1, .reg .r2, .reg .r3, .reg .r4, .reg .r5, .port, .undef][(b &&& 7).toNat]? = some d) ∧
    (b &&& 0xC7 = 0xC0 → decodeByte b = .never x) ∧
    (b &&& 0xC7 = 0xC1 → decodeByte b = .eq x) ∧
    (b &&& 0xC7 = 0xC2 → decodeByte b = .less x) ∧
    (b &&& 0xC7 = 0xC3 → decodeByte b = .lessEq x) ∧
    (b &&& 0xC7 = 0xC4 → decodeByte b = .always x) ∧
    (b &&& 0xC7 = 0xC5 → decodeByte b = .notEq x) ∧
    (b &&& 0xC7 = 0xC6 → decodeByte b = .greaterEq x) ∧
    (b &&& 0xC7 = 0xC7 → decodeByte b = .greater x)

/-- Sanity: bytes the spec writes out, 95_test_vectors.md sections 1.1 and 2.5. -/
def Obligations.SpecSampleBytesDecode : Prop :=
  decode [0b00000101#8] = .ok (.imm 5, []) ∧
  decode [0b01000101#8] = .ok (.sub 0, []) ∧
  decode [0b01111101#8] = .ok (.sub 7, []) ∧
  decode [0b01000110#8] = .ok (.calcUnused6 0, []) ∧
  decode [0b10011000#8] = .ok (.cp (.reg .r3) (.reg .r0), []) ∧
  decode [0b10110110#8] = .ok (.cp .port .port, []) ∧
  decode [0b10111001#8] = .ok (.cp .undef (.reg .r1), []) ∧
  decode [0b11000100#8] = .ok (.always 0, []) ∧
  decode [0b11111111#8] = .ok (.greater 7, [])

/-- 30_encoding.md R86: in formats C and J bits 5 to 3 have no effect on what the instruction does. -/
def Obligations.IgnoredBitsDoNotMatter : Prop :=
  ∀ b b' : W8, (b &&& 0xC0 = 0x40 ∨ b &&& 0xC0 = 0xC0) → b' &&& 0xC7 = b &&& 0xC7 →
    (decodeByte b').op = (decodeByte b).op ∧ ∀ s, exec (decodeByte b') s = exec (decodeByte b) s

/-! ### Assembler -/

/-- 30_encoding.md R105: a bare number 0 to 63 is the Immediate, a bare number 64 to 255 is that byte, an instruction of
another category. -/
def Obligations.BareNumberSyntax : Prop :=
  (∀ n, n < 64 → assembleExpr (.num n) = .ok (BitVec.ofNat 8 n) ∧ decodeByte (BitVec.ofNat 8 n) = .imm n) ∧
  (∀ n, 64 ≤ n → n < 256 →
    assembleExpr (.num n) = .ok (BitVec.ofNat 8 n) ∧ (decodeByte (BitVec.ofNat 8 n)).op ≠ .imm)

/-- 30_encoding.md R107: `cp|s<i>|d<j>` assembles to 128 + 8*i + j, which decodes to the Copy. The constants of R106 are in
force (that they are predefined is the model's choice, log 14). -/
def Obligations.CopySyntax : Prop :=
  ∀ c d a b, srcConst? c = some a → dstConst? d = some b →
    assembleExpr (.join (.join (.name .cp) (.name a)) (.name b)) = .ok (BitVec.ofNat 8 (128 + 8 * c.code + d.code)) ∧
    decodeByte (BitVec.ofNat 8 (128 + 8 * c.code + d.code)) = .cp c d

/-- 30_encoding.md R106 (the byte values) and R108: a Calculate or a Condition is written as its constant alone; the
unused codes have none.
The constants of R106 are in force (that they are predefined is the model's choice, log 14). -/
def Obligations.MnemonicConstants : Prop :=
  (assembleExpr (.name .or) = .ok 64 ∧ decodeByte 64 = .or 0) ∧
  (assembleExpr (.name .nand) = .ok 65 ∧ decodeByte 65 = .nand 0) ∧
  (assembleExpr (.name .nor) = .ok 66 ∧ decodeByte 66 = .nor 0) ∧
  (assembleExpr (.name .and) = .ok 67 ∧ decodeByte 67 = .and 0) ∧
  (assembleExpr (.name .add) = .ok 68 ∧ decodeByte 68 = .add 0) ∧
  (assembleExpr (.name .sub) = .ok 69 ∧ decodeByte 69 = .sub 0) ∧
  (assembleExpr (.name .never) = .ok 192 ∧ decodeByte 192 = .never 0) ∧
  (assembleExpr (.name .eq) = .ok 193 ∧ decodeByte 193 = .eq 0) ∧
  (assembleExpr (.name .less) = .ok 194 ∧ decodeByte 194 = .less 0) ∧
  (assembleExpr (.name .lessEq) = .ok 195 ∧ decodeByte 195 = .lessEq 0) ∧
  (assembleExpr (.name .always) = .ok 196 ∧ decodeByte 196 = .always 0) ∧
  (assembleExpr (.name .notEq) = .ok 197 ∧ decodeByte 197 = .notEq 0) ∧
  (assembleExpr (.name .greaterEq) = .ok 198 ∧ decodeByte 198 = .greaterEq 0) ∧
  (assembleExpr (.name .greater) = .ok 199 ∧ decodeByte 199 = .greater 0) ∧
  decodeByte 70 = .calcUnused6 0 ∧ decodeByte 71 = .calcUnused7 0 ∧
  ∀ c : AsmConst, c.value ≠ 70 ∧ c.value ≠ 71

/-- 30_encoding.md R104, the corner case the spec derives: a label used as a bare line loads R0 only when its address is
0 to 63. -/
def Obligations.BareLabelLoadsR0OnlyBelow64 : Prop :=
  ∀ a : W8, assembleExpr (.label a) = .ok a ∧ ((decodeByte a).op = .imm ↔ a.toNat < 64)

/-- 30_encoding.md R101 and 70_reset_and_hazards.md R237: the image the host loads holds the program's bytes at
consecutive addresses from 0 (the load itself: log 16). That an address beyond the list holds no value is the model's
choice of a partial image (20_memory.md R56, log 4), and that bytes past address 255 are dropped is its choice too
(log 17). -/
def Obligations.LoadedImageReadsBack : Prop :=
  ∀ (bs : List W8) (a : W8), (Memory.ofBytes bs).read a = bs[a.toNat]?

/-! ### The instruction cycle -/

/-- 10_state.md R31: when the byte at `pc` decodes to an instruction, that instruction is well formed and the step is
its execution, nothing added. -/
def Obligations.StepRunsTheDecodedInstruction : Prop :=
  ∀ s b i rest, s.prog.read s.pc = some b → decode [b] = .ok (i, rest) →
    i.wf = true ∧ rest = [] ∧ step s = exec i s

/-- The model's choice (log 4, 60_exceptions.md section 1, stop (d)): the step stops exactly where the host has set no
byte, and never refuses. -/
def Obligations.StepStopsExactlyAtUnsetBytes : Prop :=
  ∀ s, (s.prog.read s.pc = none → step s = .fault (.fetchUnset s.pc)) ∧
    (∀ b, s.prog.read s.pc = some b → ∃ t, step s = .next t) ∧
    (∀ r, step s ≠ .refused r)

/-- 30_encoding.md R96: no encoding is illegal and none traps. -/
def Obligations.NoByteTraps : Prop :=
  ∀ (b : W8) (s : State), ∃ t, exec (decodeByte b) s = .next t

/-- 10_state.md section 2 ("The step never stops") and 60_exceptions.md: with a total image the machine executes any
number of instructions, and the image and the run's parameters never change. -/
def Obligations.CompleteImageRunsForEver : Prop :=
  ∀ (n : Nat) (s : State), ImageComplete s.prog →
    ∃ t : State, Host.Core.run Sys2Proof.core n s = .next t ∧
      t.prog = s.prog ∧ t.src7 = s.src7 ∧ t.inputs = s.inputs

/-- Every step keeps the invariant: program memory canonical, and the history's input reads the oracle's answers
INPUT(0), INPUT(1), ... in order (10_state.md section 6, decision D7; log 8). -/
def Obligations.StepKeepsTheInvariant : Prop :=
  ∀ s t, MachineInv s → step s = .next t → MachineInv t

/-- The invariant holds after reset, whatever the six registers hold. -/
def Obligations.LaunchMeetsTheInvariant : Prop :=
  (∀ prog inputs src7 r0 r1 r2 r3 r4 r5, prog.wf = true →
    MachineInv (State.launch prog inputs src7 r0 r1 r2 r3 r4 r5)) ∧ MachineInv State.reset

/-- 10_state.md section 8 (decisions D1, D8, D9; log 1): after reset `pc` is 0x00, the history is empty, memory holds
PROG, the six registers hold any bytes, and execution begins with PROG[0]. -/
def Obligations.ResetState : Prop :=
  (∀ prog inputs src7 r0 r1 r2 r3 r4 r5, let s := State.launch prog inputs src7 r0 r1 r2 r3 r4 r5
    s.pc = 0x00 ∧ s.io = [] ∧ s.prog = prog ∧
    s.r0 = r0 ∧ s.r1 = r1 ∧ s.r2 = r2 ∧ s.r3 = r3 ∧ s.r4 = r4 ∧ s.r5 = r5 ∧
    (∀ b, prog.read 0x00 = some b → step s = exec (decodeByte b) s)) ∧
  ∃ inputs src7 r0 r1 r2 r3 r4 r5, State.reset = State.launch [] inputs src7 r0 r1 r2 r3 r4 r5

/-! ### Immediate -/

/-- 40_immediate.md R120: R0 receives the six-bit constant, zero-extended; nothing else but `pc` changes. -/
def Obligations.ImmediateLoadsR0 : Prop :=
  ∀ (v : Nat) (s : State), v < 64 →
    decodeByte (BitVec.ofNat 8 v) = .imm v ∧
    exec (.imm v) s = .next { s with r0 := BitVec.ofNat 8 v, pc := s.pc + 1 } ∧
    (BitVec.ofNat 8 v : W8).toNat = v

/-- 40_immediate.md R121 (derived there): the effect on R0 is a function of the instruction alone, and executing it
twice leaves the same R0. -/
def Obligations.ImmediateIgnoresPriorState : Prop :=
  ∀ (v : Nat) (s s' : State), ∃ t t' u,
    exec (.imm v) s = .next t ∧ exec (.imm v) s' = .next t' ∧ exec (.imm v) t = .next u ∧
    t'.r0 = t.r0 ∧ u.r0 = t.r0 ∧ RegsKept [.r0] s t ∧ t.io = s.io ∧ RunKept s t

/-! ### Calculate -/

/-- 41_calculate.md R127 to R130: OR, NAND, NOR, AND, with their encodings; nothing but R3 and `pc` changes. -/
def Obligations.LogicOperations : Prop :=
  (∀ x, x < 8 → decodeByte (BitVec.ofNat 8 (64 + 8 * x)) = .or x ∧
    decodeByte (BitVec.ofNat 8 (65 + 8 * x)) = .nand x ∧
    decodeByte (BitVec.ofNat 8 (66 + 8 * x)) = .nor x ∧
    decodeByte (BitVec.ofNat 8 (67 + 8 * x)) = .and x) ∧
  ∀ (x : Nat) (s : State),
    exec (.or x) s = .next { s with r3 := s.r1 ||| s.r2, pc := s.pc + 1 } ∧
    exec (.nand x) s = .next { s with r3 := 255 - (s.r1 &&& s.r2), pc := s.pc + 1 } ∧
    exec (.nor x) s = .next { s with r3 := 255 - (s.r1 ||| s.r2), pc := s.pc + 1 } ∧
    exec (.and x) s = .next { s with r3 := s.r1 &&& s.r2, pc := s.pc + 1 }

/-- 41_calculate.md R131 and R133: ADD and SUB modulo 256, with their encodings; the carry and the borrow are recorded
nowhere: nothing but R3 and `pc` changes. -/
def Obligations.AddAndSub : Prop :=
  (∀ x, x < 8 → decodeByte (BitVec.ofNat 8 (68 + 8 * x)) = .add x ∧
    decodeByte (BitVec.ofNat 8 (69 + 8 * x)) = .sub x) ∧
  ∀ (x : Nat) (s : State),
    exec (.add x) s = .next { s with
      r3 := BitVec.ofNat 8 ((s.r1.toNat + s.r2.toNat) % 256), pc := s.pc + 1 } ∧
    exec (.sub x) s = .next { s with
      r3 := BitVec.ofInt 8 (((s.r1.toNat : Int) - (s.r2.toNat : Int)) % 256), pc := s.pc + 1 } ∧
    exec (.sub x) s = .next { s with r3 := s.r1 + ~~~s.r2 + 1, pc := s.pc + 1 }

/-- 41_calculate.md section 3, decision D6 under `draw_R3`: the model's choice (log 7). R3 receives a free byte, whose
value nothing fixes, `pc` advances, and nothing else of the machine changes. -/
def Obligations.UnusedCalculateDrawsR3 : Prop :=
  (∀ x, x < 8 → decodeByte (BitVec.ofNat 8 (70 + 8 * x)) = .calcUnused6 x ∧
    decodeByte (BitVec.ofNat 8 (71 + 8 * x)) = .calcUnused7 x) ∧
  ∀ (x : Nat) (s : State),
    exec (.calcUnused6 x) s = .next { s with
      r3 := Config.draw s.draws, draws := s.draws + 1, pc := s.pc + 1 } ∧
    exec (.calcUnused7 x) s = .next { s with
      r3 := Config.draw s.draws, draws := s.draws + 1, pc := s.pc + 1 }

/-- 41_calculate.md R125: the result is a pure function of the operation code and the two operand bytes; R1 and R2 and
everything but R3 and `pc` keep their values. -/
def Obligations.CalculateIsAPureFunctionOfR1AndR2 : Prop :=
  ∀ (i : Instr) (s s' : State), i.op ∈ [Op.or, .nand, .nor, .and, .add, .sub] →
    s'.r1 = s.r1 → s'.r2 = s.r2 →
    ∃ t t', exec i s = .next t ∧ exec i s' = .next t' ∧ t'.r3 = t.r3 ∧
      t = { s with r3 := t.r3, pc := s.pc + 1 }

/-- 41_calculate.md section 4 and 44_idioms.md: XOR and NOT from the operations there are. -/
def Obligations.XorAndNotFromTheAlu : Prop :=
  ∀ a b : W8, alu .and (alu .or a b) (alu .nand a b) = a ^^^ b ∧
    alu .nand a a = ~~~a ∧ alu .nor a a = ~~~a

/-! ### Copy -/

/-- 42_copy.md section 1 and 3 (order of read and write: decision D15; log 15): a Copy between registers, source and
destination the same register included. -/
def Obligations.CopyRegisterToRegister : Prop :=
  ∀ (a b : Reg) (s : State), ∃ t, exec (.cp (.reg a) (.reg b)) s = .next t ∧
    t.reg b = s.reg a ∧ RegsKept [b] s t ∧ t.pc = s.pc + 1 ∧ t.io = s.io ∧ t.draws = s.draws ∧ RunKept s t ∧
    (a = b → t = { s with pc := s.pc + 1 })

/-- 42_copy.md R143: one input read into a register; `In(v)` is appended to the history. -/
def Obligations.CopyInputToRegister : Prop :=
  ∀ (b : Reg) (s : State),
    decodeByte (BitVec.ofNat 8 (176 + (RegCode.reg b).code)) = .cp .port (.reg b) ∧
    ∃ t, exec (.cp .port (.reg b)) s = .next t ∧
      t.reg b = s.inputValue (ioInputs s.io).length ∧ RegsKept [b] s t ∧ t.pc = s.pc + 1 ∧
      t.io = s.io ++ [.input (s.inputValue (ioInputs s.io).length)] ∧ t.draws = s.draws ∧ RunKept s t

/-- 42_copy.md R144: one output write of a register; `Out(x[s])` is appended to the history, no register changes. -/
def Obligations.CopyRegisterToOutput : Prop :=
  ∀ (a : Reg) (s : State),
    decodeByte (BitVec.ofNat 8 (134 + 8 * (RegCode.reg a).code)) = .cp (.reg a) .port ∧
    exec (.cp (.reg a) .port) s = .next { s with io := s.io ++ [.output (s.reg a)], pc := s.pc + 1 }

/-- 42_copy.md R145: one input read, then one output write of the same byte; no register changes. -/
def Obligations.CopyInputToOutput : Prop :=
  decodeByte 182 = .cp .port .port ∧
  ∀ s : State, let v := s.inputValue (ioInputs s.io).length
    exec (.cp .port .port) s = .next { s with io := s.io ++ [.input v, .output v], pc := s.pc + 1 }

/-- 42_copy.md section 3, source code 111 (decision D4; log 6): under SRC7 = zero it reads 0x00, under SRC7 = draw a free
byte (log 9); for every destination code. That destination 111 writes nothing is DST7 = discard (R147, decision D5;
log 10). -/
def Obligations.CopyFromSource111 : Prop :=
  (∀ (b : Reg) (s : State), s.src7 = .zero → ∃ t, exec (.cp .undef (.reg b)) s = .next t ∧
    t.reg b = 0x00 ∧ RegsKept [b] s t ∧ t.pc = s.pc + 1 ∧ t.io = s.io ∧ t.draws = s.draws ∧ RunKept s t) ∧
  (∀ s : State, s.src7 = .zero →
    exec (.cp .undef .port) s = .next { s with io := s.io ++ [.output 0x00], pc := s.pc + 1 } ∧
    exec (.cp .undef .undef) s = .next { s with pc := s.pc + 1 }) ∧
  (∀ (b : Reg) (s : State), s.src7 = .draw → ∃ t, exec (.cp .undef (.reg b)) s = .next t ∧
    t.reg b = Config.draw s.draws ∧ RegsKept [b] s t ∧ t.pc = s.pc + 1 ∧ t.io = s.io ∧
    t.draws = s.draws + 1 ∧ RunKept s t) ∧
  (∀ s : State, s.src7 = .draw →
    exec (.cp .undef .port) s = .next { s with
      io := s.io ++ [.output (Config.draw s.draws)], draws := s.draws + 1, pc := s.pc + 1 } ∧
    exec (.cp .undef .undef) s = .next { s with draws := s.draws + 1, pc := s.pc + 1 })

/-- 42_copy.md section 3, destination code 111 under DST7 = discard (decision D5; log 10): the source is read, nothing is
written; byte 183 still reads the input port, and the byte it reads is INPUT(k) (10_state.md R40, decision D7; log 8). -/
def Obligations.CopyToDestination111 : Prop :=
  (∀ (a : Reg) (s : State), exec (.cp (.reg a) .undef) s = .next { s with pc := s.pc + 1 }) ∧
  (∀ s : State, exec (.cp .port .undef) s = .next { s with
    io := s.io ++ [.input (s.inputValue (ioInputs s.io).length)], pc := s.pc + 1 }) ∧
  decodeByte 183 = .cp .port .undef

/-- 10_state.md R27: a value written to the output port cannot be read back through code 110. The model's choice: INPUT
depends on k alone (decision D7, log 8; R40 would let it depend on the history), and the port has no latch (decision D8,
log 11). -/
def Obligations.OutputCannotBeReadBack : Prop :=
  ∀ (b : Reg) (v : W8) (s : State), ∃ t t',
    exec (.cp .port (.reg b)) s = .next t ∧
    exec (.cp .port (.reg b)) { s with io := s.io ++ [.output v] } = .next t' ∧
    ∀ r, t'.reg r = t.reg r

/-- 30_encoding.md R99 (derived there): `never` and its aliases and the register self-copies change nothing but `pc`;
under SRC7 = zero and DST7 = discard (log 6, log 10) so do the seven Copies to code 111 from a register or from 111. -/
def Obligations.NoOperationEncodings : Prop :=
  (∀ (b : W8) (s : State),
    b ∈ [192, 200, 208, 216, 224, 232, 240, 248, 128, 137, 146, 155, 164, 173] →
    exec (decodeByte b) s = .next { s with pc := s.pc + 1 }) ∧
  (∀ (b : W8) (s : State), b ∈ [135, 143, 151, 159, 167, 175, 191] → s.src7 = .zero →
    exec (decodeByte b) s = .next { s with pc := s.pc + 1 })

/-! ### Condition -/

/-- 43_condition.md R166 to R173: where each Condition goes, with its encodings; it writes nothing but `pc`. -/
def Obligations.ConditionOutcomes : Prop :=
  (∀ x, x < 8 → decodeByte (BitVec.ofNat 8 (192 + 8 * x)) = .never x ∧
    decodeByte (BitVec.ofNat 8 (193 + 8 * x)) = .eq x ∧
    decodeByte (BitVec.ofNat 8 (194 + 8 * x)) = .less x ∧
    decodeByte (BitVec.ofNat 8 (195 + 8 * x)) = .lessEq x ∧
    decodeByte (BitVec.ofNat 8 (196 + 8 * x)) = .always x ∧
    decodeByte (BitVec.ofNat 8 (197 + 8 * x)) = .notEq x ∧
    decodeByte (BitVec.ofNat 8 (198 + 8 * x)) = .greaterEq x ∧
    decodeByte (BitVec.ofNat 8 (199 + 8 * x)) = .greater x) ∧
  ∀ (x : Nat) (s : State),
    exec (.never x) s = .next { s with pc := s.pc + 1 } ∧
    exec (.eq x) s = .next { s with pc := if s.r3 = 0 then s.r0 else s.pc + 1 } ∧
    exec (.less x) s = .next { s with pc := if s.r3.getLsbD 7 = true then s.r0 else s.pc + 1 } ∧
    exec (.lessEq x) s = .next { s with
      pc := if s.r3 = 0 ∨ s.r3.getLsbD 7 = true then s.r0 else s.pc + 1 } ∧
    exec (.always x) s = .next { s with pc := s.r0 } ∧
    exec (.notEq x) s = .next { s with pc := if s.r3 ≠ 0 then s.r0 else s.pc + 1 } ∧
    exec (.greaterEq x) s = .next { s with pc := if s.r3.getLsbD 7 = false then s.r0 else s.pc + 1 } ∧
    exec (.greater x) s = .next { s with
      pc := if s.r3 ≠ 0 ∧ s.r3.getLsbD 7 = false then s.r0 else s.pc + 1 }

/-- 43_condition.md R161: each condition by the two's complement reading of R3, by Z and N, and by the unsigned values
for which it holds. -/
def Obligations.ConditionTable : Prop :=
  ∀ r : W8, let Z := r = 0; let N := r.getLsbD 7 = true
    holds .never r = false ∧ holds .always r = true ∧
    (holds .eq r = true ↔ r.toInt = 0) ∧ (holds .eq r = true ↔ Z) ∧ (holds .eq r = true ↔ r.toNat = 0) ∧
    (holds .less r = true ↔ r.toInt < 0) ∧ (holds .less r = true ↔ N) ∧
    (holds .less r = true ↔ 128 ≤ r.toNat) ∧
    (holds .lessEq r = true ↔ r.toInt ≤ 0) ∧ (holds .lessEq r = true ↔ Z ∨ N) ∧
    (holds .lessEq r = true ↔ r.toNat = 0 ∨ 128 ≤ r.toNat) ∧
    (holds .notEq r = true ↔ r.toInt ≠ 0) ∧ (holds .notEq r = true ↔ ¬ Z) ∧
    (holds .notEq r = true ↔ 1 ≤ r.toNat) ∧
    (holds .greaterEq r = true ↔ 0 ≤ r.toInt) ∧ (holds .greaterEq r = true ↔ ¬ N) ∧
    (holds .greaterEq r = true ↔ r.toNat ≤ 127) ∧
    (holds .greater r = true ↔ 0 < r.toInt) ∧ (holds .greater r = true ↔ ¬ Z ∧ ¬ N) ∧
    (holds .greater r = true ↔ 1 ≤ r.toNat ∧ r.toNat ≤ 127)

/-- 43_condition.md R162: condition n+4 is the complement of condition n; bit 0 selects zero, bit 1 negative, bit 2
inverts. -/
def Obligations.BitTwoInvertsTheCondition : Prop :=
  (∀ c c' r, c'.code = c.code + 4 → holds c' r = !holds c r) ∧
  (∀ c r, holds c r =
    Bool.xor ((c.code.testBit 0 && decide (r = 0)) || (c.code.testBit 1 && r.getLsbD 7)) (c.code.testBit 2))

/-- 43_condition.md R168 and 44_idioms.md R182, the caution: after SUB the signed conditions compare the operands
exactly when the signed difference fits in -128 to 127: where it fits all four are right, where it does not all four are
wrong. `eq` and `not_eq` are always right; and 100 - 156 shows the wrap. -/
def Obligations.SignedComparisonAfterSub : Prop :=
  (∀ a b : W8, -128 ≤ a.toInt - b.toInt → a.toInt - b.toInt ≤ 127 →
    holds .less (alu .sub a b) = decide (a.toInt < b.toInt) ∧
    holds .lessEq (alu .sub a b) = decide (a.toInt ≤ b.toInt) ∧
    holds .greaterEq (alu .sub a b) = decide (b.toInt ≤ a.toInt) ∧
    holds .greater (alu .sub a b) = decide (b.toInt < a.toInt)) ∧
  (∀ a b : W8, a.toInt - b.toInt < -128 ∨ 127 < a.toInt - b.toInt →
    holds .less (alu .sub a b) ≠ decide (a.toInt < b.toInt) ∧
    holds .lessEq (alu .sub a b) ≠ decide (a.toInt ≤ b.toInt) ∧
    holds .greaterEq (alu .sub a b) ≠ decide (b.toInt ≤ a.toInt) ∧
    holds .greater (alu .sub a b) ≠ decide (b.toInt < a.toInt)) ∧
  (∀ a b : W8, holds .eq (alu .sub a b) = decide (a = b) ∧ holds .notEq (alu .sub a b) = decide (a ≠ b)) ∧
  (holds .less (alu .sub 100 156) = true ∧ (156 : W8).toInt < (100 : W8).toInt)

/-! ### Whole-machine rules -/

/-- 10_state.md R29 (derived there), who writes each register and the ports, over all instructions. That the unused
Calculates change R3 at most is 41_calculate.md R132 under `draw_R3` (decision D6; log 7), and that a Copy to code 111
changes no register is 42_copy.md R147 under `discard` (decision D5; log 10): the model's choices. -/
def Obligations.OnlyTheListedInstructionsWrite : Prop :=
  ∀ (i : Instr) (s : State), ∃ t, exec i s = .next t ∧
    (t.r0 ≠ s.r0 → i.op = .imm ∨ ∃ c, i = .cp c (.reg .r0)) ∧
    (t.r1 ≠ s.r1 → ∃ c, i = .cp c (.reg .r1)) ∧
    (t.r2 ≠ s.r2 → ∃ c, i = .cp c (.reg .r2)) ∧
    (t.r3 ≠ s.r3 → i.op ∈ [Op.or, .nand, .nor, .and, .add, .sub, .calcUnused6, .calcUnused7] ∨
      ∃ c, i = .cp c (.reg .r3)) ∧
    (t.r4 ≠ s.r4 → ∃ c, i = .cp c (.reg .r4)) ∧
    (t.r5 ≠ s.r5 → ∃ c, i = .cp c (.reg .r5)) ∧
    (t.io ≠ s.io → ∃ c d, i = .cp c d ∧ (c = .port ∨ d = .port))

/-- 10_state.md R32 and 43_condition.md R160, R163, R164: `pc` is loaded from R0 exactly by a Condition that holds, else
it is incremented; a Condition writes nothing but `pc`. -/
def Obligations.ProgramCounterRule : Prop :=
  ∀ (i : Instr) (s : State), ∃ t, exec i s = .next t ∧
    (i.cond? = none → t.pc = s.pc + 1) ∧
    (∀ c, i.cond? = some c →
      t = { s with pc := t.pc } ∧ (holds c s.r3 = true → t.pc = s.r0) ∧ (holds c s.r3 = false → t.pc = s.pc + 1))

/-- 10_state.md section 2, wrap-around (decision D3; log 3): at 0xFF every instruction that does not jump goes to
0x00. -/
def Obligations.PcWrapsAfter255 : Prop :=
  ∀ (i : Instr) (s : State), s.pc = 0xFF → (∀ c, i.cond? = some c → holds c s.r3 = false) →
    ∃ t, exec i s = .next t ∧ t.pc = 0x00

/-- 10_state.md section 6, the ports (decisions D7, D8; log 8, log 11): exactly one input read per Copy from code 110,
exactly one output write per Copy to code 110, none by any other instruction; the history only grows. -/
def Obligations.PortEventsPerInstruction : Prop :=
  ∀ (i : Instr) (s : State), ∃ t, exec i s = .next t ∧
    (∃ es, t.io = s.io ++ es ∧ es.length ≤ 2) ∧
    (∀ d, i = .cp .port d → ioInputs t.io = ioInputs s.io ++ [s.inputValue (ioInputs s.io).length]) ∧
    ((∀ d, i ≠ .cp .port d) → ioInputs t.io = ioInputs s.io) ∧
    (∀ c, i = .cp c .port → ∃ v, ioOutputs t.io = ioOutputs s.io ++ [v]) ∧
    ((∀ c, i ≠ .cp c .port) → ioOutputs t.io = ioOutputs s.io)

/-- 10_state.md R34: `pc` is no operand: what an instruction leaves in everything but `pc` does not depend on `pc`, and
only a Condition influences `pc`. That a byte drawn (unused Calculate, source 111) is the same in both executions is the
model's choice (log 9), and so is the byte an input read yields beyond the list (log 8). -/
def Obligations.NoInstructionReadsPc : Prop :=
  ∀ (i : Instr) (s : State) (p : W8), ∃ t t', exec i s = .next t ∧ exec i { s with pc := p } = .next t' ∧
    t = { t' with pc := t.pc } ∧ (i.cond? = none → t.pc = s.pc + 1)

/-- 10_state.md R26: R4 and R5 are read and written only by Copies that name them. That a byte drawn (unused Calculate,
source 111) or read from the port is the same in both executions is the model's choice (log 9, log 8), and so is what the
unused Calculates and a Copy to code 111 leave alone (decisions D6, D5; log 7, log 10). -/
def Obligations.R4AndR5OnlyByCopy : Prop :=
  ∀ (i : Instr) (s : State) (v4 v5 : W8),
    (∀ c d, i = .cp c d → c ≠ .reg .r4 ∧ c ≠ .reg .r5 ∧ d ≠ .reg .r4 ∧ d ≠ .reg .r5) →
    ∃ t, exec i s = .next t ∧ t.r4 = s.r4 ∧ t.r5 = s.r5 ∧
      exec i { s with r4 := v4, r5 := v5 } = .next { t with r4 := v4, r5 := v5 }

/-- 20_memory.md R53: no instruction writes program memory and none reads it as data; the run's parameters are constant
too (log 5). That a byte drawn or read from the port is the same in both executions is the model's choice (log 9, log 8). -/
def Obligations.NoInstructionTouchesProgramMemory : Prop :=
  ∀ (i : Instr) (s : State) (p : Memory), ∃ t, exec i s = .next t ∧
    t.prog = s.prog ∧ RunKept s t ∧ exec i { s with prog := p } = .next { t with prog := p }

/-- 44_idioms.md R185 (derived there): a machine at the head of a parking loop alternates between its two addresses for
ever, R0 holding the address, with no port event. One instruction completes before the next is fetched (decision D11;
log 15). -/
def Obligations.ParkingLoopNeverLeaves : Prop :=
  ∀ (n : Nat) (a : W8) (s : State), ParkedAt a s →
    ∃ t u : State, Host.Core.run Sys2Proof.core (2 * n) s = .next t ∧
      Host.Core.run Sys2Proof.core (2 * n + 1) s = .next u ∧
      ParkedAt a t ∧ t.io = s.io ∧ u.pc = a + 1 ∧ u.r0 = a ∧ u.io = s.io

/-- 44_idioms.md R185 (derived there; decision D11, log 15), one step: being in a parking loop at `a` (at `a`, or at
`a + 1` with R0 = a, both bytes in memory) is kept by every step, which goes to the loop's other address and changes
nothing but `pc` and R0. -/
def Obligations.EveryStepKeepsTheParkingLoop : Prop :=
  ∀ (a : W8) (s : State), InParkingLoop a s →
    ∃ t, step s = .next t ∧ InParkingLoop a t ∧
      (s.pc = a → t.pc = a + 1) ∧ (s.pc = a + 1 → t.pc = a) ∧ t.r0 = a ∧
      t = { s with r0 := t.r0, pc := t.pc }
end

