-- ==== Sys2Proof/Laws/Memory.lean ====
section
/-! SUPPORT. Read after write, and the canonical form kept by every memory operation. -/

namespace Sys2Proof.Machine

theorem readAt_writeAt_same (m : Memory) (a : Nat) (b : W8) : (m.writeAt a b).readAt a = some b := by
  induction m with
  | nil => simp [Memory.writeAt, Memory.readAt]
  | cons c rest ih =>
    obtain ⟨k, v⟩ := c
    simp only [Memory.writeAt]
    split
    · simp [Memory.readAt]
    · split
      · simp [Memory.readAt]
      · have hk : k ≠ a := by omega
        simpa [Memory.readAt, hk] using ih

theorem readAt_writeAt_other (m : Memory) {a a' : Nat} (b : W8) (h : a' ≠ a) :
    (m.writeAt a b).readAt a' = m.readAt a' := by
  have h' : a ≠ a' := h.symm
  induction m with
  | nil => simp [Memory.writeAt, Memory.readAt, h']
  | cons c rest ih =>
    obtain ⟨k, v⟩ := c
    simp only [Memory.writeAt]
    split
    · simp [Memory.readAt, h']
    · split
      · next hak => subst hak; simp [Memory.readAt, h']
      · simp [Memory.readAt, ih]

/-- Reading the address just written gives the byte written. -/
@[simp] theorem read_write_same (m : Memory) (a b : W8) : (m.write a b).read a = some b :=
  readAt_writeAt_same m a.toNat b

/-- A write leaves every other address alone. -/
theorem read_write_other (m : Memory) {a a' : W8} (b : W8) (h : a' ≠ a) :
    (m.write a b).read a' = m.read a' :=
  readAt_writeAt_other m b (fun e => h (BitVec.eq_of_toNat_eq e))

theorem wfFrom_mono {lo lo' : Nat} (h : lo' ≤ lo) (m : Memory) (hm : Memory.wfFrom lo m = true) :
    Memory.wfFrom lo' m = true := by
  cases m with
  | nil => rfl
  | cons c rest =>
    obtain ⟨k, v⟩ := c
    simp only [Memory.wfFrom, Bool.and_eq_true, decide_eq_true_eq] at hm ⊢
    exact ⟨⟨by omega, hm.1.2⟩, hm.2⟩

theorem wfFrom_writeAt (m : Memory) {lo a : Nat} (b : W8) (hlo : lo ≤ a) (ha : a < 256)
    (hm : Memory.wfFrom lo m = true) : Memory.wfFrom lo (m.writeAt a b) = true := by
  induction m generalizing lo with
  | nil => simp [Memory.writeAt, Memory.wfFrom, hlo, ha]
  | cons c rest ih =>
    obtain ⟨k, v⟩ := c
    simp only [Memory.wfFrom, Bool.and_eq_true, decide_eq_true_eq] at hm
    simp only [Memory.writeAt]
    split
    · simp only [Memory.wfFrom, Bool.and_eq_true, decide_eq_true_eq]
      exact ⟨⟨hlo, ha⟩, ⟨by omega, hm.1.2⟩, hm.2⟩
    · split
      · next hak =>
        subst hak
        simp only [Memory.wfFrom, Bool.and_eq_true, decide_eq_true_eq]
        exact ⟨⟨hlo, ha⟩, hm.2⟩
      · simp only [Memory.wfFrom, Bool.and_eq_true, decide_eq_true_eq]
        exact ⟨hm.1, ih (by omega) hm.2⟩

/-- A write keeps the canonical form. -/
theorem wf_write {m : Memory} (a b : W8) (hm : m.wf = true) : (m.write a b).wf = true :=
  wfFrom_writeAt m b (Nat.zero_le _) a.isLt hm

theorem wfFrom_place (bs : List W8) {a : Nat} (h : a + bs.length ≤ 256) :
    Memory.wfFrom a (Memory.place a bs) = true := by
  induction bs generalizing a with
  | nil => rfl
  | cons b rest ih =>
    simp only [List.length_cons] at h
    simp only [Memory.place, Memory.wfFrom, Bool.and_eq_true, decide_eq_true_eq]
    exact ⟨⟨le_refl a, by omega⟩, ih (by omega)⟩

/-- A loaded image is canonical. -/
theorem wf_ofBytes (bs : List W8) : (Memory.ofBytes bs).wf = true :=
  wfFrom_place _ (by simp [List.length_take])

/-- The reset memory is canonical. -/
theorem wf_reset : State.reset.prog.wf = true := rfl

end Sys2Proof.Machine
end

