-- ==== Sys2Proof/Laws/State.lean ====
section
/-! SUPPORT. One lemma per field per update, so that no proof unfolds a record update. -/

namespace Sys2Proof.Machine

variable (s : State) (r r' : Reg) (v t : W8)

/-! ### setReg -/

@[simp] theorem setReg_r0 : s.setReg .r0 v = { s with r0 := v } := rfl
@[simp] theorem setReg_r1 : s.setReg .r1 v = { s with r1 := v } := rfl
@[simp] theorem setReg_r2 : s.setReg .r2 v = { s with r2 := v } := rfl
@[simp] theorem setReg_r3 : s.setReg .r3 v = { s with r3 := v } := rfl
@[simp] theorem setReg_r4 : s.setReg .r4 v = { s with r4 := v } := rfl
@[simp] theorem setReg_r5 : s.setReg .r5 v = { s with r5 := v } := rfl
@[simp] theorem setReg_pc : (s.setReg r v).pc = s.pc := by cases r <;> rfl
@[simp] theorem setReg_io : (s.setReg r v).io = s.io := by cases r <;> rfl
@[simp] theorem setReg_prog : (s.setReg r v).prog = s.prog := by cases r <;> rfl
@[simp] theorem setReg_src7 : (s.setReg r v).src7 = s.src7 := by cases r <;> rfl
@[simp] theorem setReg_inputs : (s.setReg r v).inputs = s.inputs := by cases r <;> rfl
@[simp] theorem setReg_draws : (s.setReg r v).draws = s.draws := by cases r <;> rfl
@[simp] theorem setReg_reg_same : (s.setReg r v).reg r = v := by cases r <;> rfl
theorem setReg_reg_other (h : r' ≠ r) : (s.setReg r v).reg r' = s.reg r' := by
  cases r <;> cases r' <;> first | rfl | exact absurd rfl h
@[simp] theorem setReg_self : s.setReg r (s.reg r) = s := by cases r <;> rfl

/-! ### reg -/

@[simp] theorem reg_r0 : s.reg .r0 = s.r0 := rfl
@[simp] theorem reg_r1 : s.reg .r1 = s.r1 := rfl
@[simp] theorem reg_r2 : s.reg .r2 = s.r2 := rfl
@[simp] theorem reg_r3 : s.reg .r3 = s.r3 := rfl
@[simp] theorem reg_r4 : s.reg .r4 = s.r4 := rfl
@[simp] theorem reg_r5 : s.reg .r5 = s.r5 := rfl

/-! ### advance and jump -/

@[simp] theorem advance_pc : s.advance.pc = nextPc s.pc := rfl
@[simp] theorem advance_reg : s.advance.reg r = s.reg r := by cases r <;> rfl
@[simp] theorem advance_r0 : s.advance.r0 = s.r0 := rfl
@[simp] theorem advance_r1 : s.advance.r1 = s.r1 := rfl
@[simp] theorem advance_r2 : s.advance.r2 = s.r2 := rfl
@[simp] theorem advance_r3 : s.advance.r3 = s.r3 := rfl
@[simp] theorem advance_r4 : s.advance.r4 = s.r4 := rfl
@[simp] theorem advance_r5 : s.advance.r5 = s.r5 := rfl
@[simp] theorem advance_io : s.advance.io = s.io := rfl
@[simp] theorem advance_prog : s.advance.prog = s.prog := rfl
@[simp] theorem advance_src7 : s.advance.src7 = s.src7 := rfl
@[simp] theorem advance_inputs : s.advance.inputs = s.inputs := rfl
@[simp] theorem advance_draws : s.advance.draws = s.draws := rfl
@[simp] theorem jump_pc : (s.jump t).pc = t := rfl
@[simp] theorem jump_reg : (s.jump t).reg r = s.reg r := by cases r <;> rfl
@[simp] theorem jump_io : (s.jump t).io = s.io := rfl
@[simp] theorem jump_prog : (s.jump t).prog = s.prog := rfl
@[simp] theorem jump_src7 : (s.jump t).src7 = s.src7 := rfl
@[simp] theorem jump_inputs : (s.jump t).inputs = s.inputs := rfl
@[simp] theorem jump_draws : (s.jump t).draws = s.draws := rfl

/-! ### The ports and the free bytes -/

@[simp] theorem inRead_fst : (inRead s).1 = s.nextInput := rfl
@[simp] theorem inRead_reg : (inRead s).2.reg r = s.reg r := by cases r <;> rfl
@[simp] theorem inRead_pc : (inRead s).2.pc = s.pc := rfl
@[simp] theorem inRead_io : (inRead s).2.io = s.io ++ [.input s.nextInput] := rfl
@[simp] theorem inRead_prog : (inRead s).2.prog = s.prog := rfl
@[simp] theorem inRead_src7 : (inRead s).2.src7 = s.src7 := rfl
@[simp] theorem inRead_inputs : (inRead s).2.inputs = s.inputs := rfl
@[simp] theorem inRead_draws : (inRead s).2.draws = s.draws := rfl
@[simp] theorem outWrite_reg : (outWrite v s).reg r = s.reg r := by cases r <;> rfl
@[simp] theorem outWrite_pc : (outWrite v s).pc = s.pc := rfl
@[simp] theorem outWrite_io : (outWrite v s).io = s.io ++ [.output v] := rfl
@[simp] theorem outWrite_prog : (outWrite v s).prog = s.prog := rfl
@[simp] theorem outWrite_src7 : (outWrite v s).src7 = s.src7 := rfl
@[simp] theorem outWrite_inputs : (outWrite v s).inputs = s.inputs := rfl
@[simp] theorem outWrite_draws : (outWrite v s).draws = s.draws := rfl
@[simp] theorem drawByte_fst : (drawByte s).1 = Config.draw s.draws := rfl
@[simp] theorem drawByte_reg : (drawByte s).2.reg r = s.reg r := by cases r <;> rfl
@[simp] theorem drawByte_pc : (drawByte s).2.pc = s.pc := rfl
@[simp] theorem drawByte_io : (drawByte s).2.io = s.io := rfl
@[simp] theorem drawByte_prog : (drawByte s).2.prog = s.prog := rfl
@[simp] theorem drawByte_src7 : (drawByte s).2.src7 = s.src7 := rfl
@[simp] theorem drawByte_inputs : (drawByte s).2.inputs = s.inputs := rfl
@[simp] theorem drawByte_draws : (drawByte s).2.draws = s.draws + 1 := rfl

end Sys2Proof.Machine
end

