-- ==== Sys2Proof/Laws/Ops.lean ====
section
/-! SUPPORT. For each shared operation one lemma that says everything it does. -/

namespace Sys2Proof.Machine

/-- The successor of an address is the 8-bit increment. -/
@[simp] theorem nextPc_eq_add_one (p : W8) : nextPc p = p + 1 := by
  unfold nextPc
  split
  · next h => subst h; rfl
  · rfl

theorem ioInputs_append (xs ys : List IoEvent) : ioInputs (xs ++ ys) = ioInputs xs ++ ioInputs ys := by
  induction xs with
  | nil => rfl
  | cons e rest ih => cases e <;> simp [ioInputs, ih]

theorem ioOutputs_append (xs ys : List IoEvent) : ioOutputs (xs ++ ys) = ioOutputs xs ++ ioOutputs ys := by
  induction xs with
  | nil => rfl
  | cons e rest ih => cases e <;> simp [ioOutputs, ih]

/-- The signed reading is the two's complement integer. -/
theorem signed_eq_toInt (v : W8) : signed v = v.toInt := by
  have := v.isLt
  unfold signed
  rw [BitVec.toInt_eq_toNat_cond]
  split <;> split <;> omega

/-- `N` is "the signed reading is negative" (00_scope.md R7). -/
theorem isNegative_eq_signed (r : W8) : isNegative r = decide (signed r < 0) := by
  revert r; decide

/-- `Z` is "the signed reading is zero". -/
theorem isZero_eq_signed (r : W8) : isZero r = decide (signed r = 0) := by
  revert r; decide

/-- What a defined Calculate does, whole. -/
theorem calculate_eq (o : AluOp) (s : State) :
    calculate o s = { s with r3 := alu o s.r1 s.r2, pc := s.pc + 1 } := by
  simp [calculate, State.advance]

/-- What an unused Calculate does, whole. -/
theorem calculateUnused_eq (s : State) :
    calculateUnused s = { s with r3 := Config.draw s.draws, draws := s.draws + 1, pc := s.pc + 1 } := by
  simp [calculateUnused, drawByte, State.advance]

/-- What a Condition does, whole: it writes `pc` and nothing else. -/
theorem condition_eq (c : CondCode) (s : State) :
    condition c s = { s with pc := if holds c s.r3 then s.r0 else s.pc + 1 } := by
  unfold condition
  by_cases h : holds c s.r3 = true <;> simp [h, State.jump, State.advance]

/-- A source read writes only the history (code 110) or the draw counter (code 111 under `draw`). -/
theorem srcRead_cases (c : RegCode) (s : State) :
    (∃ r, c = .reg r ∧ srcRead c s = (s.reg r, s)) ∨
    (c = .port ∧ srcRead c s = (s.nextInput, { s with io := s.io ++ [.input s.nextInput] })) ∨
    (c = .undef ∧ s.src7 = .zero ∧ srcRead c s = (0, s)) ∨
    (c = .undef ∧ s.src7 = .draw ∧ srcRead c s = (Config.draw s.draws, { s with draws := s.draws + 1 })) := by
  cases c with
  | reg r => exact .inl ⟨r, rfl, rfl⟩
  | port => exact .inr (.inl ⟨rfl, rfl⟩)
  | undef =>
    cases h : s.src7
    · exact .inr (.inr (.inl ⟨rfl, rfl, by simp [srcRead, readUndef, h]⟩))
    · exact .inr (.inr (.inr ⟨rfl, rfl, by simp [srcRead, readUndef, h, drawByte]⟩))

/-- A destination write writes one register, appends one output event, or does nothing. -/
theorem dstWrite_cases (c : RegCode) (v : W8) (s : State) :
    (∃ r, c = .reg r ∧ dstWrite c v s = s.setReg r v) ∨
    (c = .port ∧ dstWrite c v s = { s with io := s.io ++ [.output v] }) ∨
    (c = .undef ∧ dstWrite c v s = s) := by
  cases c with
  | reg r => exact .inl ⟨r, rfl, rfl⟩
  | port => exact .inr (.inl ⟨rfl, rfl⟩)
  | undef => exact .inr (.inr ⟨rfl, rfl⟩)

/-- No operand function writes `pc`, the program or the run's parameters. -/
theorem copy_keeps (src dst : RegCode) (s : State) :
    let t := dstWrite dst (srcRead src s).1 (srcRead src s).2
    t.pc = s.pc ∧ t.prog = s.prog ∧ t.src7 = s.src7 ∧ t.inputs = s.inputs := by
  rcases srcRead_cases src s with ⟨r, -, h⟩ | ⟨-, h⟩ | ⟨-, -, h⟩ | ⟨-, -, h⟩ <;> rw [h] <;>
    rcases dstWrite_cases dst (srcRead src s).1 (srcRead src s).2 with ⟨r', e, -⟩ | ⟨e, -⟩ | ⟨e, -⟩ <;>
    subst e <;> simp [dstWrite, dst7Action, outWrite]

end Sys2Proof.Machine
end

