-- ==== Sys2Proof/Laws/Exec.lean ====
section
/-! SUPPORT. What exec and step answer, for proofs to cite instead of unfolding them. -/

namespace Sys2Proof.Machine

variable (s : State)

@[simp] theorem exec_imm (v : Nat) :
    exec (.imm v) s = .next { s with r0 := BitVec.ofNat 8 v, pc := s.pc + 1 } := by
  simp [exec, execImm, State.advance]

@[simp] theorem exec_or (x : Nat) : exec (.or x) s = .next (calculate .or s) := rfl
@[simp] theorem exec_nand (x : Nat) : exec (.nand x) s = .next (calculate .nand s) := rfl
@[simp] theorem exec_nor (x : Nat) : exec (.nor x) s = .next (calculate .nor s) := rfl
@[simp] theorem exec_and (x : Nat) : exec (.and x) s = .next (calculate .and s) := rfl
@[simp] theorem exec_add (x : Nat) : exec (.add x) s = .next (calculate .add s) := rfl
@[simp] theorem exec_sub (x : Nat) : exec (.sub x) s = .next (calculate .sub s) := rfl
@[simp] theorem exec_calcUnused6 (x : Nat) : exec (.calcUnused6 x) s = .next (calculateUnused s) := rfl
@[simp] theorem exec_calcUnused7 (x : Nat) : exec (.calcUnused7 x) s = .next (calculateUnused s) := rfl
@[simp] theorem exec_cp (c d : RegCode) :
    exec (.cp c d) s = .next ((dstWrite d (srcRead c s).1 (srcRead c s).2).advance) := rfl
@[simp] theorem exec_never (x : Nat) : exec (.never x) s = .next (condition .never s) := rfl
@[simp] theorem exec_eq (x : Nat) : exec (.eq x) s = .next (condition .eq s) := rfl
@[simp] theorem exec_less (x : Nat) : exec (.less x) s = .next (condition .less s) := rfl
@[simp] theorem exec_lessEq (x : Nat) : exec (.lessEq x) s = .next (condition .lessEq s) := rfl
@[simp] theorem exec_always (x : Nat) : exec (.always x) s = .next (condition .always s) := rfl
@[simp] theorem exec_notEq (x : Nat) : exec (.notEq x) s = .next (condition .notEq s) := rfl
@[simp] theorem exec_greaterEq (x : Nat) : exec (.greaterEq x) s = .next (condition .greaterEq s) := rfl
@[simp] theorem exec_greater (x : Nat) : exec (.greater x) s = .next (condition .greater s) := rfl

/-- Every way an instruction can end, once: there is always a next state, and it is one of these five. -/
theorem exec_cases (i : Instr) :
    (∃ v, i = .imm v ∧ exec i s = .next { s with r0 := BitVec.ofNat 8 v, pc := s.pc + 1 }) ∨
    (∃ o, i.cond? = none ∧ exec i s = .next (calculate o s) ∧ i.op ≠ .imm ∧ i.op ≠ .cp) ∨
    (i.cond? = none ∧ exec i s = .next (calculateUnused s) ∧ i.op ≠ .imm ∧ i.op ≠ .cp) ∨
    (∃ c d, i = .cp c d ∧
      exec i s = .next ((dstWrite d (srcRead c s).1 (srcRead c s).2).advance)) ∨
    (∃ c, i.cond? = some c ∧ exec i s = .next (condition c s)) := by
  cases i with
  | imm v => exact .inl ⟨v, rfl, exec_imm s v⟩
  | or x => exact .inr (.inl ⟨.or, rfl, rfl, nofun, nofun⟩)
  | nand x => exact .inr (.inl ⟨.nand, rfl, rfl, nofun, nofun⟩)
  | nor x => exact .inr (.inl ⟨.nor, rfl, rfl, nofun, nofun⟩)
  | and x => exact .inr (.inl ⟨.and, rfl, rfl, nofun, nofun⟩)
  | add x => exact .inr (.inl ⟨.add, rfl, rfl, nofun, nofun⟩)
  | sub x => exact .inr (.inl ⟨.sub, rfl, rfl, nofun, nofun⟩)
  | calcUnused6 x => exact .inr (.inr (.inl ⟨rfl, rfl, nofun, nofun⟩))
  | calcUnused7 x => exact .inr (.inr (.inl ⟨rfl, rfl, nofun, nofun⟩))
  | cp c d => exact .inr (.inr (.inr (.inl ⟨c, d, rfl, rfl⟩)))
  | never x => exact .inr (.inr (.inr (.inr ⟨.never, rfl, rfl⟩)))
  | eq x => exact .inr (.inr (.inr (.inr ⟨.eq, rfl, rfl⟩)))
  | less x => exact .inr (.inr (.inr (.inr ⟨.less, rfl, rfl⟩)))
  | lessEq x => exact .inr (.inr (.inr (.inr ⟨.lessEq, rfl, rfl⟩)))
  | always x => exact .inr (.inr (.inr (.inr ⟨.always, rfl, rfl⟩)))
  | notEq x => exact .inr (.inr (.inr (.inr ⟨.notEq, rfl, rfl⟩)))
  | greaterEq x => exact .inr (.inr (.inr (.inr ⟨.greaterEq, rfl, rfl⟩)))
  | greater x => exact .inr (.inr (.inr (.inr ⟨.greater, rfl, rfl⟩)))

/-- A step at a set byte is exec of the decoded instruction. -/
theorem step_of_fetch {s : State} {ir : W8} (h : s.fetch = some ir) : step s = exec (decodeByte ir) s := by
  simp [step, h]

/-- A step at an unset byte is the one fault. -/
theorem step_of_unset {s : State} (h : s.fetch = none) : step s = .fault (.fetchUnset s.pc) := by
  simp [step, h]

/-- The next step fetches the instruction that was stored for it. -/
@[simp] theorem fetch_withFetchWord (nbits w : Nat) :
    (s.withFetchWord nbits w).fetch = some (tableByte nbits w) := by
  simp [State.fetch, State.withFetchWord]

/-- A run of one more step, when the first step answers a next state: for any machine. -/
theorem core_run_succ (M : Host.Core) (n : Nat) {s t : M.State} (h : M.step s = .next t) :
    M.run (n + 1) s = M.run n t := by
  simp [Host.Core.run, h]

/-- A run of one more step of this machine. -/
theorem run_succ_of_step {s t : State} (n : Nat) (h : step s = .next t) :
    Host.Core.run Sys2Proof.core (n + 1) s = Host.Core.run Sys2Proof.core n t :=
  core_run_succ Sys2Proof.core n h

end Sys2Proof.Machine
end

