-- ==== Sys2Proof/Laws/PerInstr.lean ====
section
/-! SUPPORT. The per-instruction family EncodesInItsRow: the byte of a well-formed instruction lies in its own row of the
opcode map. -/

namespace Sys2Proof.Laws.EncodesInItsRow

/-- Some row of the opcode map is the instruction's and matches its byte. -/
def Statement (i : Instr) : Prop :=
  i.wf = true → ∃ r ∈ opcodeRows, r.op = i.op ∧ r.matches (encodeByte i) = true

/-- The rows with an ignored field, all at once: eight values of it. -/
theorem of_ignored (f : Nat → Instr) (r : OpRow) (hr : r ∈ opcodeRows) (ho : ∀ x, r.op = (f x).op)
    (hw : ∀ x, (f x).wf = ignoredFits x) (hm : ∀ x < 8, r.matches (encodeByte (f x)) = true) (x : Nat) :
    Statement (f x) := by
  intro h
  rw [hw, ignoredFits, decide_eq_true_eq] at h
  exact ⟨r, hr, ho x, hm x h⟩

theorem imm (v : Nat) : Statement (.imm v) := by
  intro h
  have hv : v < 64 := by simpa [Instr.wf, immFits] using h
  have key : ∀ v < 64, (OpRow.mk .imm 0xC0 0x00).matches (encodeByte (.imm v)) = true := by decide
  exact ⟨⟨.imm, 0xC0, 0x00⟩, by decide, rfl, key v hv⟩
theorem or (x : Nat) : Statement (.or x) :=
  of_ignored Instr.or ⟨.or, 0xC7, 0x40⟩ (by decide) (fun _ => rfl) (fun _ => rfl) (by decide) x
theorem nand (x : Nat) : Statement (.nand x) :=
  of_ignored Instr.nand ⟨.nand, 0xC7, 0x41⟩ (by decide) (fun _ => rfl) (fun _ => rfl) (by decide) x
theorem nor (x : Nat) : Statement (.nor x) :=
  of_ignored Instr.nor ⟨.nor, 0xC7, 0x42⟩ (by decide) (fun _ => rfl) (fun _ => rfl) (by decide) x
theorem and (x : Nat) : Statement (.and x) :=
  of_ignored Instr.and ⟨.and, 0xC7, 0x43⟩ (by decide) (fun _ => rfl) (fun _ => rfl) (by decide) x
theorem add (x : Nat) : Statement (.add x) :=
  of_ignored Instr.add ⟨.add, 0xC7, 0x44⟩ (by decide) (fun _ => rfl) (fun _ => rfl) (by decide) x
theorem sub (x : Nat) : Statement (.sub x) :=
  of_ignored Instr.sub ⟨.sub, 0xC7, 0x45⟩ (by decide) (fun _ => rfl) (fun _ => rfl) (by decide) x
theorem calcUnused6 (x : Nat) : Statement (.calcUnused6 x) :=
  of_ignored Instr.calcUnused6 ⟨.calcUnused6, 0xC7, 0x46⟩ (by decide) (fun _ => rfl) (fun _ => rfl) (by decide) x
theorem calcUnused7 (x : Nat) : Statement (.calcUnused7 x) :=
  of_ignored Instr.calcUnused7 ⟨.calcUnused7, 0xC7, 0x47⟩ (by decide) (fun _ => rfl) (fun _ => rfl) (by decide) x
theorem cp (src dst : RegCode) : Statement (.cp src dst) := by
  intro _
  refine ⟨⟨.cp, 0xC0, 0x80⟩, by decide, rfl, ?_⟩
  rcases src with (_ | _ | _ | _ | _ | _) | _ | _ <;> rcases dst with (_ | _ | _ | _ | _ | _) | _ | _ <;> rfl
theorem never (x : Nat) : Statement (.never x) :=
  of_ignored Instr.never ⟨.never, 0xC7, 0xC0⟩ (by decide) (fun _ => rfl) (fun _ => rfl) (by decide) x
theorem eq (x : Nat) : Statement (.eq x) :=
  of_ignored Instr.eq ⟨.eq, 0xC7, 0xC1⟩ (by decide) (fun _ => rfl) (fun _ => rfl) (by decide) x
theorem less (x : Nat) : Statement (.less x) :=
  of_ignored Instr.less ⟨.less, 0xC7, 0xC2⟩ (by decide) (fun _ => rfl) (fun _ => rfl) (by decide) x
theorem lessEq (x : Nat) : Statement (.lessEq x) :=
  of_ignored Instr.lessEq ⟨.lessEq, 0xC7, 0xC3⟩ (by decide) (fun _ => rfl) (fun _ => rfl) (by decide) x
theorem always (x : Nat) : Statement (.always x) :=
  of_ignored Instr.always ⟨.always, 0xC7, 0xC4⟩ (by decide) (fun _ => rfl) (fun _ => rfl) (by decide) x
theorem notEq (x : Nat) : Statement (.notEq x) :=
  of_ignored Instr.notEq ⟨.notEq, 0xC7, 0xC5⟩ (by decide) (fun _ => rfl) (fun _ => rfl) (by decide) x
theorem greaterEq (x : Nat) : Statement (.greaterEq x) :=
  of_ignored Instr.greaterEq ⟨.greaterEq, 0xC7, 0xC6⟩ (by decide) (fun _ => rfl) (fun _ => rfl) (by decide) x
theorem greater (x : Nat) : Statement (.greater x) :=
  of_ignored Instr.greater ⟨.greater, 0xC7, 0xC7⟩ (by decide) (fun _ => rfl) (fun _ => rfl) (by decide) x

end Sys2Proof.Laws.EncodesInItsRow
end

