-- ==== Sys2Proof/Tests/Slice0.lean ====
section
/-! SUPPORT. The model's own tests. Expected results come from spec/95_test_vectors.md, from the examples of the
instruction rules, or by hand from their pseudocode; each names its source. The last section shows, for every statement
with hypotheses, that something meets them. -/

namespace Sys2Proof.Tests

open Sys2Proof.Machine Sys2Proof.Safety

/-! ### Helpers -/

/-- A state with six registers and a program counter, no program, the given answers of the input port. -/
def st (r0 r1 r2 r3 r4 r5 pc : W8) (inputs : List W8 := []) : State :=
  { State.launch [] inputs .zero r0 r1 r2 r3 r4 r5 with pc := pc }

/-- A field of the next state. -/
def after {α : Type} (f : State → α) : Host.Outcome State Fault Refusal → Option α
  | .next s => some (f s)
  | .fault _ => none
  | .refused _ => none

/-- One step at the instruction byte `w`. -/
def run1 (s : State) (w : Nat) : Host.Outcome State Fault Refusal := step (s.withFetchWord 8 w)

/-- The registers and `pc`, as 95_test_vectors.md writes them. -/
def row (s : State) : List W8 := [s.r0, s.r1, s.r2, s.r3, s.r4, s.r5, s.pc]

/-! ### WellFormed: each check refuses an ill-formed term -/

theorem test_wf_refuses_immediate_64 : (Instr.imm 64).wf = false := by decide
theorem test_wf_refuses_ignored_field_8 : (Instr.add 8).wf = false ∧ (Instr.greater 8).wf = false := by decide
theorem test_wf_accepts_boundaries : (Instr.imm 63).wf = true ∧ (Instr.add 7).wf = true := by decide

/-! ### Decoding, by bytes written out from 30_encoding.md R82 to R85 and R91 -/

theorem test_decode_imm : decodeByte 0b00000101 = .imm 5 ∧ decodeByte 0b00111111 = .imm 63 := by decide
theorem test_decode_or : decodeByte 0b01000000 = .or 0 ∧ decodeByte 0b01111000 = .or 7 := by decide
theorem test_decode_nand : decodeByte 0b01000001 = .nand 0 := by decide
theorem test_decode_nor : decodeByte 0b01000010 = .nor 0 := by decide
theorem test_decode_and : decodeByte 0b01000011 = .and 0 := by decide
theorem test_decode_add : decodeByte 0b01101100 = .add 5 := by decide
theorem test_decode_sub : decodeByte 0b01111101 = .sub 7 := by decide
theorem test_decode_calcUnused6 : decodeByte 0b01000110 = .calcUnused6 0 := by decide
theorem test_decode_calcUnused7 : decodeByte 0b01111111 = .calcUnused7 7 := by decide
theorem test_decode_cp : decodeByte 0b10011000 = .cp (.reg .r3) (.reg .r0) ∧
    decodeByte 0b10100101 = .cp (.reg .r4) (.reg .r5) ∧ decodeByte 0b10110110 = .cp .port .port ∧
    decodeByte 0b10111001 = .cp .undef (.reg .r1) ∧ decodeByte 0b10010111 = .cp (.reg .r2) .undef := by decide
theorem test_decode_never : decodeByte 0b11000000 = .never 0 := by decide
theorem test_decode_eq : decodeByte 0b11111001 = .eq 7 := by decide
theorem test_decode_less : decodeByte 0b11000010 = .less 0 := by decide
theorem test_decode_lessEq : decodeByte 0b11000011 = .lessEq 0 := by decide
theorem test_decode_always : decodeByte 0b11000100 = .always 0 := by decide
theorem test_decode_notEq : decodeByte 0b11000101 = .notEq 0 := by decide
theorem test_decode_greaterEq : decodeByte 0b11000110 = .greaterEq 0 := by decide
theorem test_decode_greater : decodeByte 0b11111111 = .greater 7 := by decide
theorem test_decode_rejects_no_byte : decode [] = .error .noByte := by rfl
theorem test_decodeTableWord : decodeTableWord 8 0xB6 = some (.cp .port .port) := by decide

/-! ### Instructions -/

/-- 95_test_vectors.md 2.1, bytes 0x05 and 0x3F at the top of memory. -/
theorem test_imm : after row (run1 (st 0xC8 1 2 3 4 5 0x10) 0x05) = some [5, 1, 2, 3, 4, 5, 0x11] ∧
    after row (run1 (st 0 0 0 0 0 0 0xFF) 0x3F) = some [0x3F, 0, 0, 0, 0, 0, 0x00] := by decide
/-- 41_calculate.md R127, example. -/
theorem test_or : after row (run1 (st 9 0xCA 0xA6 7 4 5 0x10) 64) = some [9, 0xCA, 0xA6, 0xEE, 4, 5, 0x11] := by
  decide
/-- 41_calculate.md R128, example. -/
theorem test_nand : after row (run1 (st 9 0xCA 0xA6 7 4 5 0x10) 65) = some [9, 0xCA, 0xA6, 0x7D, 4, 5, 0x11] := by
  decide
/-- 41_calculate.md R129, example. -/
theorem test_nor : after row (run1 (st 9 0xCA 0xA6 7 4 5 0x10) 66) = some [9, 0xCA, 0xA6, 0x11, 4, 5, 0x11] := by
  decide
/-- 41_calculate.md R130, example. -/
theorem test_and : after row (run1 (st 9 0xCA 0xA6 7 4 5 0x10) 67) = some [9, 0xCA, 0xA6, 0x82, 4, 5, 0x11] := by
  decide
/-- 41_calculate.md R131, example: the carry is lost. -/
theorem test_add : after row (run1 (st 9 0xC8 0x64 7 4 5 0x10) 68) = some [9, 0xC8, 0x64, 0x2C, 4, 5, 0x11] := by
  decide
/-- 41_calculate.md R133, example, and 95_test_vectors.md 2.2: R1 minus R2, not the reverse. -/
theorem test_sub : after row (run1 (st 9 5 7 3 4 5 0x10) 69) = some [9, 5, 7, 0xFE, 4, 5, 0x11] ∧
    after row (run1 (st 9 0x64 0x9C 3 4 5 0x10) 125) = some [9, 0x64, 0x9C, 0xC8, 4, 5, 0x11] := by decide
/-- 41_calculate.md R132 under draw_R3: everything but R3 is fixed. -/
theorem test_calcUnused6 : after (fun s => (row s).eraseIdx 3) (run1 (st 9 5 7 3 4 5 0x10) 70) =
    some [9, 5, 7, 4, 5, 0x11] := by decide
/-- 41_calculate.md R132 under draw_R3. -/
theorem test_calcUnused7 : after (fun s => (row s).eraseIdx 3) (run1 (st 9 5 7 3 4 5 0xFF) 127) =
    some [9, 5, 7, 4, 5, 0x00] := by decide
/-- 95_test_vectors.md 2.3, bytes 152, 185 and 143. -/
theorem test_cp_registers :
    after row (run1 (st 0x10 0x11 0x12 0x13 0x14 0x15 0x20) 152) =
      some [0x13, 0x11, 0x12, 0x13, 0x14, 0x15, 0x21] ∧
    after row (run1 (st 0x10 0x11 0x12 0x13 0x14 0x15 0x20) 185) =
      some [0x10, 0x00, 0x12, 0x13, 0x14, 0x15, 0x21] ∧
    after row (run1 (st 0x10 0x11 0x12 0x13 0x14 0x15 0x20) 143) =
      some [0x10, 0x11, 0x12, 0x13, 0x14, 0x15, 0x21] := by decide
/-- 95_test_vectors.md 2.3, bytes 177, 158, 182 and 183, next input 0x99. -/
theorem test_cp_ports :
    after (fun s => (s.r1, s.io)) (run1 (st 0x10 0x11 0x12 0x13 0x14 0x15 0x20 [0x99]) 177) =
      some (0x99, [.input 0x99]) ∧
    after (·.io) (run1 (st 0x10 0x11 0x12 0x13 0x14 0x15 0x20 [0x99]) 158) = some [.output 0x13] ∧
    after (·.io) (run1 (st 0x10 0x11 0x12 0x13 0x14 0x15 0x20 [0x99]) 182) =
      some [.input 0x99, .output 0x99] ∧
    after (·.io) (run1 (st 0x10 0x11 0x12 0x13 0x14 0x15 0x20 [0x99]) 183) = some [.input 0x99] := by decide
/-- 95_test_vectors.md 2.3: the second read yields the second answer. -/
theorem test_second_input :
    after (·.r5) (run1 { st 0 0 0 0 0 0 0 [1, 2] with io := [.input 1, .output 7] } 181) = some 2 := by decide

/-- `pc` after each of the eight Conditions, for a value of R3, with R0 = 7 and `pc` = 4 (95_test_vectors.md 2.4). -/
def condRow (r3 : W8) : List (Option W8) :=
  [192, 193, 194, 195, 196, 197, 198, 199].map fun w => after (·.pc) (run1 (st 7 0 0 r3 0 0 4) w)

/-- 95_test_vectors.md 2.4, first row. -/
theorem test_conditions_at_0 :
    condRow 0x00 = [some 5, some 7, some 5, some 7, some 7, some 5, some 7, some 5] := by decide
/-- 95_test_vectors.md 2.4. -/
theorem test_conditions_at_1 :
    condRow 0x01 = [some 5, some 5, some 5, some 5, some 7, some 7, some 7, some 7] := by decide
/-- 95_test_vectors.md 2.4. -/
theorem test_conditions_at_127 :
    condRow 0x7F = [some 5, some 5, some 5, some 5, some 7, some 7, some 7, some 7] := by decide
/-- 95_test_vectors.md 2.4. -/
theorem test_conditions_at_128 :
    condRow 0x80 = [some 5, some 5, some 7, some 7, some 7, some 7, some 5, some 5] := by decide
/-- 95_test_vectors.md 2.4, other vectors: the target is all eight bits of R0; a taken jump at 0xFF goes to R0; a
Condition changes no register. -/
theorem test_condition_targets :
    after row (run1 (st 0xC8 1 2 0 4 5 0x10) 193) = some [0xC8, 1, 2, 0, 4, 5, 0xC8] ∧
    after (·.pc) (run1 (st 0x33 0 0 0 0 0 0xFF) 196) = some 0x33 ∧
    after (·.pc) (run1 (st 0x33 0 0 0 0 0 0xFF) 192) = some 0x00 := by decide

/-- log 4: an address the host has not set stops the machine. -/
theorem test_unset_byte_faults : step State.reset = .fault (.fetchUnset 0x00) := by rfl

/-- 30_encoding.md R103: `cp|s3|d0` is 152. -/
theorem test_assemble : assemble [.num 5, .join (.join (.name .cp) (.name .s3)) (.name .d0), .name .always] =
    .ok [5, 152, 196] := by rfl

/-! ### Witnesses: what meets the hypotheses of each statement -/

/-- A program of every byte: the image 0, 0, 0, ... of 256 bytes. -/
def fullImage : Memory := Memory.ofBytes (List.replicate 256 0)

/-- A state whose memory holds one byte at `pc`. -/
def at0 (b : W8) : State := State.launch [(0, b)] [0x99] .zero 1 2 3 4 5 6

theorem witness_EncodeTableAndDecodeOfEncode :
    (63 < 64 ∧ 7 < 8) ∧ (Instr.imm 63).wf = true ∧ (Instr.sub 7).wf = true ∧ (Instr.cp .undef .port).wf = true := by
  decide
theorem witness_EncodeOfDecodeIsTheBytes : decode [0x7D, 0x01] = .ok (.sub 7, [0x01]) ∧ decode [] = .error .noByte :=
  ⟨rfl, rfl⟩
theorem witness_DecodeIsTheSpecsTable :
    (0x3F : W8) &&& 0xC0 = 0x00 ∧ (0x78 : W8) &&& 0xC7 = 0x40 ∧ (0x79 : W8) &&& 0xC7 = 0x41 ∧
    (0x7A : W8) &&& 0xC7 = 0x42 ∧ (0x7B : W8) &&& 0xC7 = 0x43 ∧ (0x7C : W8) &&& 0xC7 = 0x44 ∧
    (0x7D : W8) &&& 0xC7 = 0x45 ∧ (0x7E : W8) &&& 0xC7 = 0x46 ∧ (0x7F : W8) &&& 0xC7 = 0x47 ∧
    (0xBF : W8) &&& 0xC0 = 0x80 ∧ (0xF8 : W8) &&& 0xC7 = 0xC0 ∧ (0xF9 : W8) &&& 0xC7 = 0xC1 ∧
    (0xFA : W8) &&& 0xC7 = 0xC2 ∧ (0xFB : W8) &&& 0xC7 = 0xC3 ∧ (0xFC : W8) &&& 0xC7 = 0xC4 ∧
    (0xFD : W8) &&& 0xC7 = 0xC5 ∧ (0xFE : W8) &&& 0xC7 = 0xC6 ∧ (0xFF : W8) &&& 0xC7 = 0xC7 := by decide
theorem witness_IgnoredBitsDoNotMatter :
    ((0x45 : W8) &&& 0xC0 = 0x40 ∧ (0x7D : W8) &&& 0xC7 = 0x45 &&& 0xC7) ∧
    ((0xC7 : W8) &&& 0xC0 = 0xC0 ∧ (0xFF : W8) &&& 0xC7 = 0xC7 &&& 0xC7) := by decide
theorem witness_BareNumberSyntax : 63 < 64 ∧ 64 ≤ 64 ∧ 64 < 256 ∧ 64 ≤ 255 ∧ 255 < 256 := by decide
theorem witness_CopySyntax : srcConst? .port = some .sin ∧ dstConst? (.reg .r5) = some .d5 := by decide
theorem witness_StepRunsTheDecodedInstruction :
    (at0 0x45).prog.read (at0 0x45).pc = some 0x45 ∧ decode [0x45] = .ok (.sub 0, []) := ⟨rfl, rfl⟩
theorem witness_StepStopsExactlyAtUnsetBytes :
    State.reset.prog.read State.reset.pc = none ∧ (at0 0x45).prog.read (at0 0x45).pc = some 0x45 := by decide
set_option maxRecDepth 20000 in
theorem fullImage_isSome : ∀ a : W8, (fullImage.read a).isSome = true := by decide
theorem witness_CompleteImageRunsForEver : ImageComplete fullImage :=
  fun a => Option.isSome_iff_exists.mp (fullImage_isSome a)
theorem witness_StepKeepsTheInvariant :
    MachineInv (at0 177) ∧ ∃ t, step (at0 177) = .next t ∧ t.io = [.input 0x99] :=
  ⟨⟨rfl, by decide⟩, _, rfl, rfl⟩
theorem witness_LaunchMeetsTheInvariant : Memory.wf [(0, 0x45), (255, 0xC4)] = true := by decide
theorem witness_ResetState : Memory.read [(0, 0x45)] 0x00 = some 0x45 := by decide
theorem witness_ImmediateLoadsR0 : 0 < 64 ∧ 63 < 64 := by decide
theorem witness_LogicOperations_AddAndSub_UnusedCalculate_ConditionOutcomes : 0 < 8 ∧ 7 < 8 := by decide
theorem witness_CalculateIsAPureFunctionOfR1AndR2 :
    (Instr.sub 3).op ∈ [Op.or, .nand, .nor, .and, .add, .sub] ∧
    (st 9 5 7 9 9 9 9).r1 = (st 1 5 7 1 1 1 1).r1 ∧ (st 9 5 7 9 9 9 9).r2 = (st 1 5 7 1 1 1 1).r2 := by decide
theorem witness_CopyRegisterToRegister : (Reg.r3 = Reg.r3) := rfl
theorem witness_CopyFromSource111 :
    (at0 185).src7 = .zero ∧ ({ at0 185 with src7 := .draw } : State).src7 = .draw := by decide
theorem witness_NoOperationEncodings :
    (200 : W8) ∈ [(192 : W8), 200, 208, 216, 224, 232, 240, 248, 128, 137, 146, 155, 164, 173] ∧
    (191 : W8) ∈ [(135 : W8), 143, 151, 159, 167, 175, 191] ∧ (at0 191).src7 = .zero := by decide
theorem witness_BitTwoInvertsTheCondition : CondCode.greater.code = CondCode.lessEq.code + 4 := by decide
theorem witness_SignedComparisonAfterSub :
    (-128 ≤ (128 : W8).toInt - (0 : W8).toInt ∧ (128 : W8).toInt - (0 : W8).toInt ≤ 127) ∧
    (-128 ≤ (127 : W8).toInt - (0 : W8).toInt ∧ (127 : W8).toInt - (0 : W8).toInt ≤ 127) ∧
    (128 : W8).toInt - (1 : W8).toInt < -128 ∧ 127 < (0 : W8).toInt - (128 : W8).toInt := by decide
theorem witness_OnlyTheListedInstructionsWrite :
    after (·.r0) (exec (.imm 5) (st 9 1 2 3 4 5 0)) = some 5 ∧
    after (·.r1) (exec (.cp (.reg .r0) (.reg .r1)) (st 9 1 2 3 4 5 0)) = some 9 ∧
    after (·.r2) (exec (.cp (.reg .r0) (.reg .r2)) (st 9 1 2 3 4 5 0)) = some 9 ∧
    after (·.r3) (exec (.add 0) (st 9 1 1 3 4 5 0)) = some 2 ∧
    after (·.r4) (exec (.cp (.reg .r0) (.reg .r4)) (st 9 1 2 3 4 5 0)) = some 9 ∧
    after (·.r5) (exec (.cp (.reg .r0) (.reg .r5)) (st 9 1 2 3 4 5 0)) = some 9 ∧
    after (·.io) (exec (.cp (.reg .r0) .port) (st 9 1 2 3 4 5 0)) = some [.output 9] := by decide
theorem witness_ProgramCounterRule :
    (Instr.add 0).cond? = none ∧ (Instr.eq 0).cond? = some .eq ∧
    holds .eq (st 7 0 0 0 0 0 4).r3 = true ∧ holds .eq (st 7 0 0 1 0 0 4).r3 = false := by decide
theorem witness_PcWrapsAfter255 :
    (st 7 0 0 1 0 0 0xFF).pc = 0xFF ∧
    ∀ c, (Instr.eq 0).cond? = some c → holds c (st 7 0 0 1 0 0 0xFF).r3 = false :=
  ⟨rfl, fun c h => by cases h; decide⟩
theorem witness_PortEventsPerInstruction :
    (∀ d, Instr.add 0 ≠ .cp .port d) ∧ (∀ c, Instr.add 0 ≠ .cp c .port) ∧
    (∃ d, Instr.cp .port .port = .cp .port d) ∧ (∃ c, Instr.cp .port .port = .cp c .port) :=
  ⟨nofun, nofun, ⟨_, rfl⟩, ⟨_, rfl⟩⟩
theorem witness_NoInstructionReadsPc : (Instr.cp .port .undef).cond? = none := by decide
theorem witness_R4AndR5OnlyByCopy :
    ∀ c d, Instr.cp (.reg .r0) (.reg .r1) = .cp c d →
      c ≠ .reg .r4 ∧ c ≠ .reg .r5 ∧ d ≠ .reg .r4 ∧ d ≠ .reg .r5 := by
  intro c d h
  cases h
  decide
theorem witness_ParkingLoopNeverLeaves :
    ParkedAt 63 { st 0 0 0 0 0 0 63 with prog := [(63, 63), (64, 196)] } := by decide
theorem witness_EveryStepKeepsTheParkingLoop :
    InParkingLoop 63 { st 0 0 0 0 0 0 63 with prog := [(63, 63), (64, 196)] } ∧
    InParkingLoop 63 { st 63 0 0 0 0 0 64 with prog := [(63, 63), (64, 196)] } := by decide

end Sys2Proof.Tests
end

section
/-! PROOFS. The statements about who reads and who writes the state (10_state.md), and the lemmas they share. -/

namespace Sys2Proof.Machine

/-! ### Reading a register or the input port -/

theorem setReg_reg (s : State) (r r' : Reg) (v : W8) :
    (s.setReg r v).reg r' = if r' = r then v else s.reg r' := by
  split
  · next h => rw [h, setReg_reg_same]
  · next h => exact setReg_reg_other s r r' v h

/-- An output event is no input read, so the next input-port read is the same one (10_state.md R40). -/
theorem nextInput_append_output (s : State) (v : W8) :
    State.nextInput { s with io := s.io ++ [.output v] } = s.nextInput := by
  simp [State.nextInput, State.inputCount, State.inputValue, ioInputs_append, ioInputs]

/-! ### What an instruction is, at every state at once -/

/-- The five meanings of `exec_cases`, chosen by the instruction alone: for statements that compare two executions. -/
theorem exec_shape (i : Instr) :
    (∃ v, i = .imm v) ∨
    (∃ o, ∀ s, exec i s = .next (calculate o s)) ∨
    (∀ s, exec i s = .next (calculateUnused s)) ∨
    (∃ c d, i = .cp c d) ∨
    (∃ c, i.cond? = some c ∧ ∀ s, exec i s = .next (condition c s)) := by
  cases i with
  | imm v => exact .inl ⟨v, rfl⟩
  | or | nand | nor | and | add | sub => exact .inr (.inl ⟨_, fun _ => rfl⟩)
  | calcUnused6 | calcUnused7 => exact .inr (.inr (.inl fun _ => rfl))
  | cp c d => exact .inr (.inr (.inr (.inl ⟨c, d, rfl⟩)))
  | never | eq | less | lessEq | always | notEq | greaterEq | greater =>
    exact .inr (.inr (.inr (.inr ⟨_, rfl, fun _ => rfl⟩)))

/-- The rows that are no Immediate, no Copy and no Condition are the eight Calculates (30_encoding.md R91). -/
theorem op_mem_calculates {i : Instr} (hcond : i.cond? = none) (himm : i.op ≠ .imm) (hcp : i.op ≠ .cp) :
    i.op ∈ [Op.or, .nand, .nor, .and, .add, .sub, .calcUnused6, .calcUnused7] := by
  cases i with
  | imm => exact absurd rfl himm
  | or | nand | nor | and | add | sub | calcUnused6 | calcUnused7 => simp [Instr.op]
  | cp => exact absurd rfl hcp
  | never | eq | less | lessEq | always | notEq | greaterEq | greater => cases hcond

/-! ### What a Copy leaves unchanged -/

@[simp] theorem srcRead_reg (c : RegCode) (s : State) (r : Reg) : (srcRead c s).2.reg r = s.reg r := by
  rcases srcRead_cases c s with ⟨r', -, h⟩ | ⟨-, h⟩ | ⟨-, -, h⟩ | ⟨-, -, h⟩ <;> rw [h] <;> cases r <;> rfl

theorem dstWrite_reg_of_ne {d : RegCode} {r : Reg} (h : d ≠ .reg r) (v : W8) (s : State) :
    (dstWrite d v s).reg r = s.reg r := by
  cases d with
  | reg r' => exact setReg_reg_other s r' r v fun e => h (by rw [e])
  | port => exact outWrite_reg s r v
  | undef => rfl

/-- A Copy changes no register but its destination. -/
theorem copy_reg_of_ne {d : RegCode} {r : Reg} (h : d ≠ .reg r) (c : RegCode) (s : State) :
    (dstWrite d (srcRead c s).1 (srcRead c s).2).advance.reg r = s.reg r := by
  rw [advance_reg, dstWrite_reg_of_ne h, srcRead_reg]

/-- A Copy that changes a register names it as its destination. -/
theorem copy_names_changed_reg {c d : RegCode} {s : State} {r : Reg}
    (h : (dstWrite d (srcRead c s).1 (srcRead c s).2).advance.reg r ≠ s.reg r) :
    ∃ c', Instr.cp c d = .cp c' (.reg r) := by
  have hd : d = .reg r := by
    by_contra hne
    exact h (copy_reg_of_ne hne c s)
  exact ⟨c, by rw [hd]⟩

/-- A Copy that names the port neither as source nor as destination leaves the history alone. -/
theorem copy_io_of_ne_port {c d : RegCode} (hc : c ≠ .port) (hd : d ≠ .port) (s : State) :
    (dstWrite d (srcRead c s).1 (srcRead c s).2).advance.io = s.io := by
  have hsrc : (srcRead c s).2.io = s.io := by
    rcases srcRead_cases c s with ⟨r, -, h⟩ | ⟨e, -⟩ | ⟨-, -, h⟩ | ⟨-, -, h⟩
    · rw [h]
    · exact absurd e hc
    · rw [h]
    · rw [h]
  rw [advance_io, ← hsrc]
  rcases dstWrite_cases d (srcRead c s).1 (srcRead c s).2 with ⟨r, -, h⟩ | ⟨e, -⟩ | ⟨-, h⟩
  · rw [h, setReg_io]
  · exact absurd e hd
  · rw [h]

/-! ### A Copy at two states that differ in what it does not read -/

theorem srcRead_withPc (c : RegCode) (s : State) (p : W8) :
    srcRead c { s with pc := p } = ((srcRead c s).1, { (srcRead c s).2 with pc := p }) := by
  cases c with
  | reg r => cases r <;> rfl
  | port => rfl
  | undef => cases h : s.src7 <;> simp [srcRead, readUndef, drawByte, h]

theorem dstWrite_withPc (d : RegCode) (v : W8) (s : State) (p : W8) :
    dstWrite d v { s with pc := p } = { dstWrite d v s with pc := p } := by
  cases d with
  | reg r => cases r <;> rfl
  | port => rfl
  | undef => rfl

theorem srcRead_withR4R5 {c : RegCode} (h4 : c ≠ .reg .r4) (h5 : c ≠ .reg .r5) (s : State) (v4 v5 : W8) :
    srcRead c { s with r4 := v4, r5 := v5 } =
      ((srcRead c s).1, { (srcRead c s).2 with r4 := v4, r5 := v5 }) := by
  cases c with
  | reg r =>
    cases r with
    | r0 | r1 | r2 | r3 => rfl
    | r4 => exact absurd rfl h4
    | r5 => exact absurd rfl h5
  | port => rfl
  | undef => cases h : s.src7 <;> simp [srcRead, readUndef, drawByte, h]

theorem dstWrite_withR4R5 {d : RegCode} (h4 : d ≠ .reg .r4) (h5 : d ≠ .reg .r5) (v : W8) (s : State)
    (v4 v5 : W8) :
    dstWrite d v { s with r4 := v4, r5 := v5 } = { dstWrite d v s with r4 := v4, r5 := v5 } := by
  cases d with
  | reg r =>
    cases r with
    | r0 | r1 | r2 | r3 => rfl
    | r4 => exact absurd rfl h4
    | r5 => exact absurd rfl h5
  | port => rfl
  | undef => rfl

end Sys2Proof.Machine

namespace Sys2Proof.Proofs

open Sys2Proof.Machine

/-- Settles O32: an earlier output event does not change which input answer is next. -/
theorem outputCannotBeReadBack : Obligations.OutputCannotBeReadBack := by
  unfold Obligations.OutputCannotBeReadBack
  intro b v s
  refine ⟨_, _, exec_cp s .port (.reg b), exec_cp _ .port (.reg b), fun r => ?_⟩
  have hin := nextInput_append_output s v
  have hreg : State.reg { s with io := s.io ++ [.output v] } r = s.reg r := outWrite_reg s r v
  simp only [dstWrite, srcRead, advance_reg, setReg_reg, inRead_fst, inRead_reg, hin, hreg]

/-- Settles O38, by the five ways an instruction can end. -/
theorem onlyTheListedInstructionsWrite : Obligations.OnlyTheListedInstructionsWrite := by
  unfold Obligations.OnlyTheListedInstructionsWrite
  intro i s
  rcases exec_cases s i with
    ⟨v, rfl, h⟩ | ⟨o, hcond, h, himm, hcp⟩ | ⟨hcond, h, himm, hcp⟩ | ⟨c, d, rfl, h⟩ | ⟨c, -, h⟩
  · exact ⟨_, h, fun _ => .inl rfl, absurd rfl, absurd rfl, absurd rfl, absurd rfl, absurd rfl, absurd rfl⟩
  · rw [calculate_eq] at h
    exact ⟨_, h, absurd rfl, absurd rfl, absurd rfl, fun _ => .inl (op_mem_calculates hcond himm hcp),
      absurd rfl, absurd rfl, absurd rfl⟩
  · rw [calculateUnused_eq] at h
    exact ⟨_, h, absurd rfl, absurd rfl, absurd rfl, fun _ => .inl (op_mem_calculates hcond himm hcp),
      absurd rfl, absurd rfl, absurd rfl⟩
  · refine ⟨_, h, fun w => .inr (copy_names_changed_reg (r := .r0) w), copy_names_changed_reg (r := .r1),
      copy_names_changed_reg (r := .r2), fun w => .inr (copy_names_changed_reg (r := .r3) w),
      copy_names_changed_reg (r := .r4), copy_names_changed_reg (r := .r5), fun w => ⟨c, d, rfl, ?_⟩⟩
    by_contra hport
    obtain ⟨hc, hd⟩ := not_or.mp hport
    exact w (copy_io_of_ne_port hc hd s)
  · rw [condition_eq] at h
    exact ⟨_, h, absurd rfl, absurd rfl, absurd rfl, absurd rfl, absurd rfl, absurd rfl, absurd rfl⟩

/-- Settles O42, by the instruction's meaning at both states; only a Condition sets `pc` otherwise than by the
increment. -/
theorem noInstructionReadsPc : Obligations.NoInstructionReadsPc := by
  unfold Obligations.NoInstructionReadsPc
  intro i s p
  rcases exec_shape i with ⟨v, rfl⟩ | ⟨o, h⟩ | h | ⟨c, d, rfl⟩ | ⟨c, hcond, h⟩
  · exact ⟨_, _, exec_imm s v, exec_imm _ v, rfl, fun _ => rfl⟩
  · exact ⟨_, _, h s, h _, by simp only [calculate_eq], fun _ => by rw [calculate_eq]⟩
  · exact ⟨_, _, h s, h _, by simp only [calculateUnused_eq], fun _ => by rw [calculateUnused_eq]⟩
  · obtain ⟨hpc, -, -, -⟩ := copy_keeps c d s
    refine ⟨_, _, exec_cp s c d, exec_cp _ c d, ?_, fun _ => ?_⟩
    · rw [srcRead_withPc c s p, dstWrite_withPc d _ _ p]
      rfl
    · rw [advance_pc, nextPc_eq_add_one, hpc]
  · refine ⟨_, _, h s, h _, by simp only [condition_eq], fun hnone => ?_⟩
    rw [hcond] at hnone
    cases hnone

/-- Settles O43: an instruction that is no Copy naming R4 or R5 commutes with replacing the two. -/
theorem r4AndR5OnlyByCopy : Obligations.R4AndR5OnlyByCopy := by
  unfold Obligations.R4AndR5OnlyByCopy
  intro i s v4 v5 hcopy
  rcases exec_shape i with ⟨v, rfl⟩ | ⟨o, h⟩ | h | ⟨c, d, rfl⟩ | ⟨c, -, h⟩
  · exact ⟨_, exec_imm s v, rfl, rfl, exec_imm _ v⟩
  · simp only [h, calculate_eq]
    exact ⟨_, rfl, rfl, rfl, rfl⟩
  · simp only [h, calculateUnused_eq]
    exact ⟨_, rfl, rfl, rfl, rfl⟩
  · obtain ⟨hc4, hc5, hd4, hd5⟩ := hcopy c d rfl
    refine ⟨_, exec_cp s c d, copy_reg_of_ne hd4 c s, copy_reg_of_ne hd5 c s, ?_⟩
    rw [exec_cp, srcRead_withR4R5 hc4 hc5, dstWrite_withR4R5 hd4 hd5]
    rfl
  · simp only [h, condition_eq]
    exact ⟨_, rfl, rfl, rfl, rfl⟩

end Sys2Proof.Proofs
end

section
/-! PROOFS. The statement about program memory (20_memory.md R53), and the lemmas it needs. -/

namespace Sys2Proof.Machine

/-! ### The operand functions at two states that differ in program memory -/

theorem srcRead_withProg (c : RegCode) (s : State) (p : Memory) :
    srcRead c { s with prog := p } = ((srcRead c s).1, { (srcRead c s).2 with prog := p }) := by
  cases c with
  | reg r => cases r <;> rfl
  | port => rfl
  | undef => cases h : s.src7 <;> simp [srcRead, readUndef, drawByte, h]

theorem dstWrite_withProg (d : RegCode) (v : W8) (s : State) (p : Memory) :
    dstWrite d v { s with prog := p } = { dstWrite d v s with prog := p } := by
  cases d with
  | reg r => cases r <;> rfl
  | port => rfl
  | undef => rfl

end Sys2Proof.Machine

namespace Sys2Proof.Proofs

open Sys2Proof.Machine Sys2Proof.Safety

/-- A state with the same image and parameters keeps what a run never changes: equal images read alike everywhere. -/
theorem runKept_of_eq {s t : State} (hprog : t.prog = s.prog) (hsrc7 : t.src7 = s.src7)
    (hinputs : t.inputs = s.inputs) : RunKept s t :=
  ⟨fun a => by rw [hprog], hsrc7, hinputs⟩

/-- Settles O44, by the instruction's meaning at both images; in a Copy both operand functions commute with replacing
the image. -/
theorem noInstructionTouchesProgramMemory : Obligations.NoInstructionTouchesProgramMemory := by
  unfold Obligations.NoInstructionTouchesProgramMemory
  intro i s p
  rcases exec_shape i with ⟨v, rfl⟩ | ⟨o, h⟩ | h | ⟨c, d, rfl⟩ | ⟨c, -, h⟩
  · exact ⟨_, exec_imm s v, rfl, runKept_of_eq rfl rfl rfl, exec_imm _ v⟩
  · simp only [h, calculate_eq]
    exact ⟨_, rfl, rfl, runKept_of_eq rfl rfl rfl, rfl⟩
  · simp only [h, calculateUnused_eq]
    exact ⟨_, rfl, rfl, runKept_of_eq rfl rfl rfl, rfl⟩
  · obtain ⟨-, hprog, hsrc7, hinputs⟩ := copy_keeps c d s
    refine ⟨_, exec_cp s c d, hprog, runKept_of_eq hprog hsrc7 hinputs, ?_⟩
    rw [exec_cp, srcRead_withProg, dstWrite_withProg]
    rfl
  · simp only [h, condition_eq]
    exact ⟨_, rfl, rfl, runKept_of_eq rfl rfl rfl, rfl⟩

end Sys2Proof.Proofs
end

section
/-! PROOFS. The statements about the encoding (30_encoding.md), and the layer of facts about the decoder they share. -/

namespace Sys2Proof

/-! ### The fields of a byte (30_encoding.md R81 to R85), as arithmetic -/

theorem fieldCategory_eq (b : W8) : fieldCategory b = b.toNat / 64 := by
  have := b.isLt
  simp only [fieldCategory, BitVec.extractLsb'_toNat, Nat.shiftRight_eq_div_pow]
  omega

theorem fieldImm_eq (b : W8) : fieldImm b = b.toNat % 64 := by
  simp [fieldImm, BitVec.extractLsb'_toNat]

theorem fieldMid_eq (b : W8) : fieldMid b = b.toNat / 8 % 8 := by
  simp [fieldMid, BitVec.extractLsb'_toNat, Nat.shiftRight_eq_div_pow]

theorem fieldLow_eq (b : W8) : fieldLow b = b.toNat % 8 := by
  simp [fieldLow, BitVec.extractLsb'_toNat]

theorem fieldMid_lt (b : W8) : fieldMid b < 8 := (b.extractLsb' 3 3).isLt

theorem fieldLow_lt (b : W8) : fieldLow b < 8 := (b.extractLsb' 0 3).isLt

/-- The ignored field as 30_encoding.md R94 writes it. -/
theorem fieldMid_eq_shift_and (b : W8) : fieldMid b = ((b >>> 3) &&& 7).toNat := by
  have hand : b.toNat / 8 &&& 7 = b.toNat / 8 % 8 := Nat.and_two_pow_sub_one_eq_mod _ 3
  simp [fieldMid_eq, Nat.shiftRight_eq_div_pow, hand]

theorem fieldLow_eq_and (b : W8) : fieldLow b = (b &&& 7).toNat := by
  have hand : b.toNat &&& 7 = b.toNat % 8 := Nat.and_two_pow_sub_one_eq_mod _ 3
  simp [fieldLow_eq, hand]

theorem fieldImm_eq_and (b : W8) : fieldImm b = (b &&& 0x3F).toNat := by
  have hand : b.toNat &&& 63 = b.toNat % 64 := Nat.and_two_pow_sub_one_eq_mod _ 6
  simp [fieldImm_eq, hand]

/-! ### The masks of the opcode map keep the fields they select (30_encoding.md R91) -/

theorem extractLsb'_and_of_allOnes {m : W8} {i n : Nat} (hm : m.extractLsb' i n = BitVec.allOnes n) (b : W8) :
    (b &&& m).extractLsb' i n = b.extractLsb' i n := by
  rw [BitVec.extractLsb'_and, hm, BitVec.and_allOnes]

theorem fieldCategory_and_C0 (b : W8) : fieldCategory (b &&& 0xC0) = fieldCategory b := by
  rw [fieldCategory, extractLsb'_and_of_allOnes (by decide), fieldCategory]

theorem fieldCategory_and_C7 (b : W8) : fieldCategory (b &&& 0xC7) = fieldCategory b := by
  rw [fieldCategory, extractLsb'_and_of_allOnes (by decide), fieldCategory]

theorem fieldLow_and_C7 (b : W8) : fieldLow (b &&& 0xC7) = fieldLow b := by
  rw [fieldLow, extractLsb'_and_of_allOnes (by decide), fieldLow]

theorem fieldMid_and_C7 (b : W8) : fieldMid (b &&& 0xC7) = 0 := by
  have hmask : (0xC7 : W8).extractLsb' 3 3 = 0#3 := by decide
  rw [fieldMid, BitVec.extractLsb'_and, hmask, BitVec.and_zero, BitVec.toNat_zero]

/-! ### A byte and its fields determine each other -/

/-- A byte is its category, its middle and its low field put together. -/
theorem encodeFields_fields {b : W8} {base : Nat} (hbase : base = 64 * fieldCategory b) :
    encodeFields base (fieldMid b) (fieldLow b) = b := by
  have := b.isLt
  rw [hbase, encodeFields, fieldCategory_eq, fieldMid_eq, fieldLow_eq]
  apply BitVec.eq_of_toNat_eq
  rw [BitVec.toNat_ofNat]
  omega

/-- The fields of a byte put together from a category `k`, a middle and a low field. -/
theorem fields_encodeFields {base k x o : Nat} (hbase : base = 64 * k) (hk : k < 4) (hx : x < 8) (ho : o < 8) :
    fieldCategory (encodeFields base x o) = k ∧ fieldMid (encodeFields base x o) = x ∧
      fieldLow (encodeFields base x o) = o := by
  rw [fieldCategory_eq, fieldMid_eq, fieldLow_eq, encodeFields, BitVec.toNat_ofNat]
  omega

/-! ### The decoder, category by category (30_encoding.md R89, R94) -/

theorem decodeByte_immediate {b : W8} (h : fieldCategory b = 0) : decodeByte b = .imm (fieldImm b) := by
  simp [decodeByte, h]

theorem decodeByte_calculate {b : W8} (h : fieldCategory b = 1) :
    decodeByte b = decodeCalculate (fieldLow b) (fieldMid b) := by
  simp [decodeByte, h]

theorem decodeByte_copy {b : W8} (h : fieldCategory b = 2) :
    decodeByte b = .cp (.ofCode (fieldMid b)) (.ofCode (fieldLow b)) := by
  simp [decodeByte, h]

theorem decodeByte_condition {b : W8} (h : fieldCategory b = 3) :
    decodeByte b = decodeCondition (fieldLow b) (fieldMid b) := by
  simp [decodeByte, h]

theorem fieldCategory_cases (b : W8) :
    fieldCategory b = 0 ∨ fieldCategory b = 1 ∨ fieldCategory b = 2 ∨ fieldCategory b = 3 := by
  have := b.isLt
  rw [fieldCategory_eq]
  omega

/-! ### Register codes (10_state.md R21) -/

theorem RegCode.code_lt (c : RegCode) : c.code < 8 := by
  rcases c with (_ | _ | _ | _ | _ | _) | _ | _ <;> decide

@[simp] theorem RegCode.ofCode_code (c : RegCode) : RegCode.ofCode c.code = c := by
  rcases c with (_ | _ | _ | _ | _ | _) | _ | _ <;> rfl

theorem RegCode.code_ofCode : ∀ n < 8, (RegCode.ofCode n).code = n := by decide

/-- The register codes in the order of the table of 10_state.md R21. -/
theorem getElem?_regCodeTable : ∀ n < 8,
    [.reg .r0, .reg .r1, .reg .r2, .reg .r3, .reg .r4, .reg .r5, .port, .undef][n]? = some (RegCode.ofCode n) := by
  decide

/-! ### Categories 01 and 11 by their low field -/

theorem encodeByte_decodeCalculate {o : Nat} (ho : o < 8) (x : Nat) :
    encodeByte (decodeCalculate o x) = encodeFields 64 x o := by
  interval_cases o <;> rfl

theorem encodeByte_decodeCondition {c : Nat} (hc : c < 8) (x : Nat) :
    encodeByte (decodeCondition c x) = encodeFields 192 x c := by
  interval_cases c <;> rfl

theorem wf_decodeCalculate (o x : Nat) : (decodeCalculate o x).wf = ignoredFits x := by
  unfold decodeCalculate
  split <;> rfl

theorem wf_decodeCondition (c x : Nat) : (decodeCondition c x).wf = ignoredFits x := by
  unfold decodeCondition
  split <;> rfl

theorem op_decodeCalculate_ne_imm (o x : Nat) : (decodeCalculate o x).op ≠ .imm := by
  unfold decodeCalculate
  split <;> nofun

theorem op_decodeCondition_ne_imm (c x : Nat) : (decodeCondition c x).op ≠ .imm := by
  unfold decodeCondition
  split <;> nofun

/-- The ignored field chooses no row. -/
theorem op_decodeCalculate_ignored {o : Nat} (ho : o < 8) (x x' : Nat) :
    (decodeCalculate o x').op = (decodeCalculate o x).op := by
  interval_cases o <;> rfl

theorem op_decodeCondition_ignored {c : Nat} (hc : c < 8) (x x' : Nat) :
    (decodeCondition c x').op = (decodeCondition c x).op := by
  interval_cases c <;> rfl

/-! ### The round trips -/

theorem decodeByte_ofNat_imm {v : Nat} (hv : v < 64) : decodeByte (BitVec.ofNat 8 v) = .imm v := by
  have hnat : (BitVec.ofNat 8 v : W8).toNat = v := by rw [BitVec.toNat_ofNat]; omega
  have hcat : fieldCategory (BitVec.ofNat 8 v) = 0 := by rw [fieldCategory_eq, hnat]; omega
  rw [decodeByte_immediate hcat, fieldImm_eq, hnat, Nat.mod_eq_of_lt hv]

theorem decodeByte_encodeFields_calculate {x o : Nat} (hx : x < 8) (ho : o < 8) :
    decodeByte (encodeFields 64 x o) = decodeCalculate o x := by
  obtain ⟨hcat, hmid, hlow⟩ := fields_encodeFields (base := 64) (k := 1) rfl (by decide) hx ho
  rw [decodeByte_calculate hcat, hmid, hlow]

theorem decodeByte_encodeFields_condition {x c : Nat} (hx : x < 8) (hc : c < 8) :
    decodeByte (encodeFields 192 x c) = decodeCondition c x := by
  obtain ⟨hcat, hmid, hlow⟩ := fields_encodeFields (base := 192) (k := 3) rfl (by decide) hx hc
  rw [decodeByte_condition hcat, hmid, hlow]

theorem decodeByte_encodeFields_copy (c d : RegCode) : decodeByte (encodeFields 128 c.code d.code) = .cp c d := by
  obtain ⟨hcat, hmid, hlow⟩ := fields_encodeFields (base := 128) (k := 2) rfl (by decide) c.code_lt d.code_lt
  rw [decodeByte_copy hcat, hmid, hlow, RegCode.ofCode_code, RegCode.ofCode_code]

/-- Decoding the byte of a well-formed instruction gives the instruction (30_encoding.md R112). -/
theorem decodeByte_encodeByte {i : Instr} (h : i.wf = true) : decodeByte (encodeByte i) = i := by
  cases i with
  | imm v => exact decodeByte_ofNat_imm (of_decide_eq_true h)
  | or | nand | nor | and | add | sub | calcUnused6 | calcUnused7 =>
    exact decodeByte_encodeFields_calculate (of_decide_eq_true h) (by decide)
  | cp c d => exact decodeByte_encodeFields_copy c d
  | never | eq | less | lessEq | always | notEq | greaterEq | greater =>
    exact decodeByte_encodeFields_condition (of_decide_eq_true h) (by decide)

/-- Encoding what a byte decodes to gives the byte back (30_encoding.md R94, last sentence; log 13). -/
theorem encodeByte_decodeByte (b : W8) : encodeByte (decodeByte b) = b := by
  rcases fieldCategory_cases b with h | h | h | h
  · rw [decodeByte_immediate h, encodeByte, fieldImm_eq]
    rw [fieldCategory_eq] at h
    rw [Nat.mod_eq_of_lt (by omega), BitVec.ofNat_toNat, BitVec.setWidth_eq]
  · rw [decodeByte_calculate h, encodeByte_decodeCalculate (fieldLow_lt b)]
    exact encodeFields_fields (by rw [h])
  · rw [decodeByte_copy h, encodeByte, RegCode.code_ofCode _ (fieldMid_lt b),
      RegCode.code_ofCode _ (fieldLow_lt b)]
    exact encodeFields_fields (by rw [h])
  · rw [decodeByte_condition h, encodeByte_decodeCondition (fieldLow_lt b)]
    exact encodeFields_fields (by rw [h])

/-- What a byte decodes to is well formed. -/
theorem wf_decodeByte (b : W8) : (decodeByte b).wf = true := by
  have hmid : ignoredFits (fieldMid b) = true := decide_eq_true (fieldMid_lt b)
  rcases fieldCategory_cases b with h | h | h | h
  · rw [decodeByte_immediate h]
    exact decide_eq_true (b.extractLsb' 0 6).isLt
  · rw [decodeByte_calculate h, wf_decodeCalculate, hmid]
  · rw [decodeByte_copy h]
    rfl
  · rw [decodeByte_condition h, wf_decodeCondition, hmid]

/-! ### The row of a byte -/

/-- The row is chosen by the category and the low field alone. -/
theorem op_decodeByte_congr {b b' : W8} (hcat : fieldCategory b' = fieldCategory b)
    (hlow : fieldLow b' = fieldLow b) : (decodeByte b').op = (decodeByte b).op := by
  rcases fieldCategory_cases b with h | h | h | h <;> rw [h] at hcat
  · rw [decodeByte_immediate h, decodeByte_immediate hcat]
    rfl
  · rw [decodeByte_calculate h, decodeByte_calculate hcat, hlow]
    exact op_decodeCalculate_ignored (fieldLow_lt b) _ _
  · rw [decodeByte_copy h, decodeByte_copy hcat]
    rfl
  · rw [decodeByte_condition h, decodeByte_condition hcat, hlow]
    exact op_decodeCondition_ignored (fieldLow_lt b) _ _

/-- The Immediates are the bytes below 64 (30_encoding.md R105). -/
theorem op_decodeByte_eq_imm_iff (b : W8) : (decodeByte b).op = .imm ↔ b.toNat < 64 := by
  have hlt : b.toNat < 64 ↔ fieldCategory b = 0 := by rw [fieldCategory_eq]; omega
  rw [hlt]
  rcases fieldCategory_cases b with h | h | h | h
  · simp [decodeByte_immediate h, h, Instr.op]
  · simp [decodeByte_calculate h, h, op_decodeCalculate_ne_imm]
  · simp [decodeByte_copy h, h, Instr.op]
  · simp [decodeByte_condition h, h, op_decodeCondition_ne_imm]

/-- A row of category 01 gives the Calculate of the row's low field. -/
theorem decodeByte_of_calculate_bits {b bits : W8} (hcat : fieldCategory bits = 1) (h : b &&& 0xC7 = bits) :
    decodeByte b = decodeCalculate (fieldLow bits) (fieldMid b) := by
  subst h
  rw [fieldCategory_and_C7] at hcat
  rw [decodeByte_calculate hcat, fieldLow_and_C7]

/-- A row of category 11 gives the Condition of the row's low field. -/
theorem decodeByte_of_condition_bits {b bits : W8} (hcat : fieldCategory bits = 3) (h : b &&& 0xC7 = bits) :
    decodeByte b = decodeCondition (fieldLow bits) (fieldMid b) := by
  subst h
  rw [fieldCategory_and_C7] at hcat
  rw [decodeByte_condition hcat, fieldLow_and_C7]

/-- No row tests bits 5 to 3. -/
theorem matches_and_C7 {r : OpRow} (hr : r ∈ opcodeRows) (b : W8) : r.matches (b &&& 0xC7) = r.matches b := by
  have hmask : ∀ r ∈ opcodeRows, 0xC7 &&& r.mask = r.mask := by decide
  rw [OpRow.matches, BitVec.and_assoc, hmask r hr, OpRow.matches]

/-- The thirty-two bytes whose bits 5 to 3 are 0, by category and low field: each matches exactly its row. -/
theorem filter_matches_encodeFields : ∀ k < 4, ∀ o < 8,
    (opcodeRows.filter (·.matches (encodeFields (64 * k) 0 o))).map (·.op) =
      [(decodeByte (encodeFields (64 * k) 0 o)).op] := by
  decide

end Sys2Proof

namespace Sys2Proof.Machine

/-! ### The ignored field has no effect (30_encoding.md R86) -/

theorem exec_decodeCalculate_ignored {o : Nat} (ho : o < 8) (x x' : Nat) (s : State) :
    exec (decodeCalculate o x') s = exec (decodeCalculate o x) s := by
  interval_cases o <;> rfl

theorem exec_decodeCondition_ignored {c : Nat} (hc : c < 8) (x x' : Nat) (s : State) :
    exec (decodeCondition c x') s = exec (decodeCondition c x) s := by
  interval_cases c <;> rfl

end Sys2Proof.Machine

namespace Sys2Proof.Proofs

open Sys2Proof.Machine

/-- Settles O1: the table by the codes of the fields, the round trip by the instruction's format. -/
theorem encodeTableAndDecodeOfEncode : Obligations.EncodeTableAndDecodeOfEncode := by
  unfold Obligations.EncodeTableAndDecodeOfEncode
  refine ⟨fun _ _ => rfl, rfl, rfl, rfl, rfl, rfl, rfl, fun s d hs hd => ?_, fun c hc => ?_, fun i rest hwf => ?_⟩
  · rw [encodeByte, RegCode.code_ofCode s hs, RegCode.code_ofCode d hd, encodeFields]
  · rw [encodeByte_decodeCondition hc, encodeFields]
  · rw [encode, List.singleton_append, decode, decodeByte_encodeByte hwf]

/-- Settles O2: an instruction is decoded from the head byte alone. -/
theorem encodeOfDecodeIsTheBytes : Obligations.EncodeOfDecodeIsTheBytes := by
  unfold Obligations.EncodeOfDecodeIsTheBytes
  refine ⟨fun bs i rest h => ?_, fun bs e => ?_⟩
  · cases bs with
    | nil => cases h
    | cons b bs =>
      cases h
      exact ⟨by rw [encode, encodeByte_decodeByte, List.singleton_append], wf_decodeByte b⟩
  · cases bs with
    | nil => simp [decode]
    | cons b bs => simp [decode]

/-- Settles O6: equality outside bits 5 to 3 is equality of the category and the low field. -/
theorem ignoredBitsDoNotMatter : Obligations.IgnoredBitsDoNotMatter := by
  unfold Obligations.IgnoredBitsDoNotMatter
  intro b b' hcategory hsame
  have hcat : fieldCategory b' = fieldCategory b := by
    rw [← fieldCategory_and_C7 b', hsame, fieldCategory_and_C7]
  have hlow : fieldLow b' = fieldLow b := by rw [← fieldLow_and_C7 b', hsame, fieldLow_and_C7]
  refine ⟨op_decodeByte_congr hcat hlow, fun s => ?_⟩
  rcases hcategory with h | h
  · have hb : fieldCategory b = 1 := by rw [← fieldCategory_and_C0, h]; rfl
    rw [decodeByte_calculate hb, decodeByte_calculate (hcat.trans hb), hlow]
    exact exec_decodeCalculate_ignored (fieldLow_lt b) _ _ s
  · have hb : fieldCategory b = 3 := by rw [← fieldCategory_and_C0, h]; rfl
    rw [decodeByte_condition hb, decodeByte_condition (hcat.trans hb), hlow]
    exact exec_decodeCondition_ignored (fieldLow_lt b) _ _ s

/-- Settles O3: neither the rows nor the decoded row look at bits 5 to 3, so the bytes with these bits 0 decide. -/
theorem everyByteMatchesExactlyItsRow : Obligations.EveryByteMatchesExactlyItsRow := by
  unfold Obligations.EveryByteMatchesExactlyItsRow
  refine ⟨rfl, fun b => ?_⟩
  have hcat : fieldCategory b < 4 := (b.extractLsb' 6 2).isLt
  have hcanonical : encodeFields (64 * fieldCategory b) 0 (fieldLow b) = b &&& 0xC7 := by
    rw [← fieldMid_and_C7 b, ← fieldLow_and_C7 b]
    exact encodeFields_fields (by rw [fieldCategory_and_C7])
  have hrows : opcodeRows.filter (·.matches (b &&& 0xC7)) = opcodeRows.filter (·.matches b) :=
    List.filter_congr fun r hr => matches_and_C7 hr b
  have hop := op_decodeByte_congr (fieldCategory_and_C7 b) (fieldLow_and_C7 b)
  have h := filter_matches_encodeFields _ hcat _ (fieldLow_lt b)
  rwa [hcanonical, hrows, hop] at h

/-- Settles O4: the masked byte fixes the category and, in categories 01 and 11, the low field. -/
theorem decodeIsTheSpecsTable : Obligations.DecodeIsTheSpecsTable := by
  unfold Obligations.DecodeIsTheSpecsTable
  intro b
  have hcategory {bits : W8} (h : b &&& 0xC0 = bits) : fieldCategory b = fieldCategory bits := by
    rw [← h, fieldCategory_and_C0]
  rw [← fieldMid_eq_shift_and, ← fieldLow_eq_and, ← fieldImm_eq_and]
  exact ⟨fun h => decodeByte_immediate (hcategory h),
    decodeByte_of_calculate_bits rfl, decodeByte_of_calculate_bits rfl, decodeByte_of_calculate_bits rfl,
    decodeByte_of_calculate_bits rfl, decodeByte_of_calculate_bits rfl, decodeByte_of_calculate_bits rfl,
    decodeByte_of_calculate_bits rfl, decodeByte_of_calculate_bits rfl,
    fun h => ⟨_, _, decodeByte_copy (hcategory h), getElem?_regCodeTable _ (fieldMid_lt b),
      getElem?_regCodeTable _ (fieldLow_lt b)⟩,
    decodeByte_of_condition_bits rfl, decodeByte_of_condition_bits rfl, decodeByte_of_condition_bits rfl,
    decodeByte_of_condition_bits rfl, decodeByte_of_condition_bits rfl, decodeByte_of_condition_bits rfl,
    decodeByte_of_condition_bits rfl, decodeByte_of_condition_bits rfl⟩

end Sys2Proof.Proofs
end

section
/-! PROOFS. The statements about the assembler and the loaded image (30_encoding.md R101 to R108). -/

namespace Sys2Proof.Machine

/-! ### One source line -/

/-- A value that fits a byte assembles to that byte. -/
theorem assembleExpr_of_lt {e : AsmExpr} (h : e.value < 256) : assembleExpr e = .ok (BitVec.ofNat 8 e.value) :=
  if_pos h

theorem AsmConst.value_lt (c : AsmConst) : c.value < 256 := by cases c <;> decide

/-- A constant whose value is the byte of a well-formed instruction is that instruction's mnemonic. -/
theorem constant_names_instruction {c : AsmConst} {i : Instr} {b : W8} (hwf : i.wf = true)
    (hbyte : encodeByte i = b) (hvalue : BitVec.ofNat 8 c.value = b) :
    assembleExpr (.name c) = .ok b ∧ decodeByte b = i := by
  refine ⟨?_, ?_⟩
  · rw [assembleExpr_of_lt (e := .name c) c.value_lt, ← hvalue]
    rfl
  · rw [← hbyte, decodeByte_encodeByte hwf]

/-! ### The constants of a Copy (30_encoding.md R106) -/

theorem value_of_srcConst? {c : RegCode} {a : AsmConst} (h : srcConst? c = some a) : a.value = 8 * c.code := by
  rcases c with (_ | _ | _ | _ | _ | _) | _ | _ <;> cases h <;> rfl

theorem value_of_dstConst? {d : RegCode} {b : AsmConst} (h : dstConst? d = some b) : b.value = d.code := by
  rcases d with (_ | _ | _ | _ | _ | _) | _ | _ <;> cases h <;> rfl

/-- The three parts of a Copy byte have no bit in common, so `|` adds them. -/
theorem copy_or_eq_add {i j : Nat} (hi : i < 8) (hj : j < 8) : (128 ||| 8 * i) ||| j = 128 + 8 * i + j := by
  have hsrc : 128 + 8 * i = 128 ||| 8 * i := Nat.two_pow_add_eq_or_of_lt (i := 7) (by omega) 1
  have hdst : 8 * (16 + i) + j = 8 * (16 + i) ||| j := Nat.two_pow_add_eq_or_of_lt (i := 3) hj _
  rw [Nat.mul_add] at hdst
  rw [← hsrc, ← hdst]

/-! ### The loaded image -/

theorem readAt_place (bs : List W8) (a n : Nat) : (Memory.place a bs).readAt (a + n) = bs[n]? := by
  induction bs generalizing a n with
  | nil => rfl
  | cons b bs ih =>
    cases n with
    | zero => simp [Memory.place, Memory.readAt]
    | succ n =>
      have hne : a ≠ a + (n + 1) := by omega
      have hadd : a + (n + 1) = a + 1 + n := by omega
      rw [Memory.place, Memory.readAt, if_neg hne, hadd, ih, List.getElem?_cons_succ]

end Sys2Proof.Machine

namespace Sys2Proof.Proofs

open Sys2Proof.Machine

/-- Settles O11, by induction over the list from any first address. -/
theorem loadedImageReadsBack : Obligations.LoadedImageReadsBack := by
  unfold Obligations.LoadedImageReadsBack
  intro bs a
  have h := readAt_place (bs.take 256) 0 a.toNat
  rw [Nat.zero_add] at h
  rw [Memory.read, Memory.ofBytes, h, List.getElem?_take_of_lt a.isLt]

/-- Settles O7: the number fits a byte, and the Immediates are the bytes below 64. -/
theorem bareNumberSyntax : Obligations.BareNumberSyntax := by
  unfold Obligations.BareNumberSyntax
  refine ⟨fun n hn => ⟨?_, decodeByte_ofNat_imm hn⟩, fun n hlo hhi => ⟨assembleExpr_of_lt hhi, ?_⟩⟩
  · exact assembleExpr_of_lt (e := .num n) (hn.trans (by decide))
  · rw [Ne, op_decodeByte_eq_imm_iff, BitVec.toNat_ofNat]
    omega

/-- Settles O8: the expression's value is the byte of the Copy. -/
theorem copySyntax : Obligations.CopySyntax := by
  unfold Obligations.CopySyntax
  intro c d a b ha hb
  have hc := c.code_lt
  have hd := d.code_lt
  have hvalue : (AsmExpr.join (.join (.name .cp) (.name a)) (.name b)).value = 128 + 8 * c.code + d.code := by
    rw [← copy_or_eq_add hc hd, ← value_of_srcConst? ha, ← value_of_dstConst? hb]
    rfl
  refine ⟨?_, decodeByte_encodeFields_copy c d⟩
  rw [assembleExpr_of_lt (by omega), hvalue]

/-- Settles O9: each constant's value is the byte of its instruction with the ignored bits 0. -/
theorem mnemonicConstants : Obligations.MnemonicConstants := by
  unfold Obligations.MnemonicConstants
  have hunused : ∀ c : AsmConst, c.value ≠ 70 ∧ c.value ≠ 71 := by
    intro c
    cases c <;> decide
  exact ⟨constant_names_instruction rfl rfl rfl, constant_names_instruction rfl rfl rfl,
    constant_names_instruction rfl rfl rfl, constant_names_instruction rfl rfl rfl,
    constant_names_instruction rfl rfl rfl, constant_names_instruction rfl rfl rfl,
    constant_names_instruction rfl rfl rfl, constant_names_instruction rfl rfl rfl,
    constant_names_instruction rfl rfl rfl, constant_names_instruction rfl rfl rfl,
    constant_names_instruction rfl rfl rfl, constant_names_instruction rfl rfl rfl,
    constant_names_instruction rfl rfl rfl, constant_names_instruction rfl rfl rfl,
    decodeByte_encodeByte (i := .calcUnused6 0) rfl, decodeByte_encodeByte (i := .calcUnused7 0) rfl, hunused⟩

/-- Settles O10: a label's value is a byte, and the Immediates are the bytes below 64. -/
theorem bareLabelLoadsR0OnlyBelow64 : Obligations.BareLabelLoadsR0OnlyBelow64 := by
  unfold Obligations.BareLabelLoadsR0OnlyBelow64
  intro a
  refine ⟨?_, op_decodeByte_eq_imm_iff a⟩
  rw [assembleExpr_of_lt (e := .label a) a.isLt, AsmExpr.value, BitVec.ofNat_toNat, BitVec.setWidth_eq]

end Sys2Proof.Proofs
end

section
/-! PROOFS. The statements about what bytes do when executed (30_encoding.md R96, R99). -/

namespace Sys2Proof.Machine

/-- Every instruction completes, at every state. -/
theorem exists_exec_eq_next (i : Instr) (s : State) : ∃ t, exec i s = .next t := by
  rcases exec_cases s i with ⟨_, -, h⟩ | ⟨_, -, h, -, -⟩ | ⟨-, h, -, -⟩ | ⟨_, _, -, h⟩ | ⟨_, -, h⟩ <;>
    exact ⟨_, h⟩

/-! ### The instructions that do nothing (30_encoding.md R99) -/

theorem advance_eq (s : State) : s.advance = { s with pc := s.pc + 1 } := by
  rw [State.advance, nextPc_eq_add_one]

theorem exec_never_eq_next_pc (x : Nat) (s : State) : exec (.never x) s = .next { s with pc := s.pc + 1 } := by
  rw [exec_never, condition_eq]
  rfl

theorem exec_cp_self (r : Reg) (s : State) :
    exec (.cp (.reg r) (.reg r)) s = .next { s with pc := s.pc + 1 } := by
  rw [exec_cp, srcRead, dstWrite, setReg_self, advance_eq]

theorem exec_cp_reg_undef (r : Reg) (s : State) : exec (.cp (.reg r) .undef) s = .next { s with pc := s.pc + 1 } := by
  rw [exec_cp, srcRead, dstWrite, dst7Action, advance_eq]

theorem exec_cp_undef_undef {s : State} (h : s.src7 = .zero) :
    exec (.cp .undef .undef) s = .next { s with pc := s.pc + 1 } := by
  have hread : readUndef s = (0, s) := by rw [readUndef, h]
  rw [exec_cp, srcRead, hread, dstWrite, dst7Action, advance_eq]

/-- The six registers (10_state.md R20). -/
def allRegs : List Reg := [.r0, .r1, .r2, .r3, .r4, .r5]

/-- `never` with each value of the ignored field, and the six register self-copies (30_encoding.md R99). -/
def idleInstrs : List Instr :=
  (List.range 8).map .never ++ allRegs.map fun r => .cp (.reg r) (.reg r)

/-- The Copies to code 111 from a register and from code 111 (30_encoding.md R99). -/
def discardingCopies : List Instr := allRegs.map (fun r => .cp (.reg r) .undef) ++ [.cp .undef .undef]

theorem exec_of_mem_idleInstrs {i : Instr} (hi : i ∈ idleInstrs) (s : State) :
    exec i s = .next { s with pc := s.pc + 1 } := by
  rcases List.mem_append.mp hi with h | h <;> obtain ⟨_, -, rfl⟩ := List.mem_map.mp h
  · exact exec_never_eq_next_pc _ s
  · exact exec_cp_self _ s

theorem exec_of_mem_discardingCopies {i : Instr} (hi : i ∈ discardingCopies) {s : State} (hsrc7 : s.src7 = .zero) :
    exec i s = .next { s with pc := s.pc + 1 } := by
  rcases List.mem_append.mp hi with h | h
  · obtain ⟨r, -, rfl⟩ := List.mem_map.mp h
    exact exec_cp_reg_undef r s
  · obtain rfl := List.mem_singleton.mp h
    exact exec_cp_undef_undef hsrc7

/-- A byte among the bytes of well-formed instructions decodes to one of them. -/
theorem decodeByte_mem_of_mem_map {is : List Instr} (hwf : ∀ i ∈ is, i.wf = true) {b : W8}
    (hb : b ∈ is.map encodeByte) : decodeByte b ∈ is := by
  obtain ⟨i, hi, rfl⟩ := List.mem_map.mp hb
  rwa [decodeByte_encodeByte (hwf i hi)]

end Sys2Proof.Machine

namespace Sys2Proof.Proofs

open Sys2Proof.Machine

/-- Settles O14: every instruction completes. -/
theorem noByteTraps : Obligations.NoByteTraps := by
  unfold Obligations.NoByteTraps
  exact fun b s => exists_exec_eq_next (decodeByte b) s

/-- Settles O33: the listed bytes are the encodings of the instructions that do nothing. -/
theorem noOperationEncodings : Obligations.NoOperationEncodings := by
  unfold Obligations.NoOperationEncodings
  refine ⟨fun b s hb => ?_, fun b s hb hsrc7 => ?_⟩
  · have hbytes : idleInstrs.map encodeByte =
        [192, 200, 208, 216, 224, 232, 240, 248, 128, 137, 146, 155, 164, 173] := rfl
    rw [← hbytes] at hb
    exact exec_of_mem_idleInstrs (decodeByte_mem_of_mem_map (by decide) hb) s
  · have hbytes : discardingCopies.map encodeByte = [135, 143, 151, 159, 167, 175, 191] := rfl
    rw [← hbytes] at hb
    exact exec_of_mem_discardingCopies (decodeByte_mem_of_mem_map (by decide) hb) hsrc7

end Sys2Proof.Proofs
end

section
/-! PROOFS. The statements about the Immediate (40_immediate.md). -/

namespace Sys2Proof.Proofs

open Sys2Proof.Machine Sys2Proof.Safety

/-- Writing one register, and `pc`, keeps every other register. -/
theorem regsKept_setReg_withPc (s : State) (r : Reg) (v p : W8) :
    RegsKept [r] s { s.setReg r v with pc := p } := by
  intro r' hr'
  have hpc : State.reg { s.setReg r v with pc := p } r' = (s.setReg r v).reg r' := jump_reg (s.setReg r v) r' p
  rw [hpc, setReg_reg_other s r r' v (List.ne_of_not_mem_cons hr')]

/-- Settles O19: the constant's byte lies in category 00, and its execution is one register write. -/
theorem immediateLoadsR0 : Obligations.ImmediateLoadsR0 := by
  unfold Obligations.ImmediateLoadsR0
  intro v s hv
  have hbyte : v < 2 ^ 8 := hv.trans (by decide)
  exact ⟨decodeByte_ofNat_imm hv, exec_imm s v, (BitVec.toNat_ofNat v 8).trans (Nat.mod_eq_of_lt hbyte)⟩

/-- Settles O20: in each of the three executions R0 receives the constant. -/
theorem immediateIgnoresPriorState : Obligations.ImmediateIgnoresPriorState := by
  unfold Obligations.ImmediateIgnoresPriorState
  intro v s s'
  exact ⟨_, _, _, exec_imm s v, exec_imm s' v, exec_imm _ v, rfl, rfl,
    regsKept_setReg_withPc s .r0 (BitVec.ofNat 8 v) (s.pc + 1), rfl, runKept_of_eq rfl rfl rfl⟩

end Sys2Proof.Proofs
end

section
/-! PROOFS. The statements about the six defined Calculates (41_calculate.md). -/

namespace Sys2Proof.Machine

/-! ### The bytes and the meaning of a Calculate -/

/-- A Calculate's byte, with its ignored field, as 41_calculate.md writes it: 64 and the operation code, plus 8 `x`. -/
theorem decodeByte_ofNat_calculate {n o x : Nat} (hn : n = 64 + o) (ho : o < 8) (hx : x < 8) :
    decodeByte (BitVec.ofNat 8 (n + 8 * x)) = decodeCalculate o x := by
  have hsum : n + 8 * x = 64 + 8 * x + o := by omega
  rw [hsum]
  exact decodeByte_encodeFields_calculate hx ho

/-- Each of the six rows is one operation of the ALU, at every state (41_calculate.md R126). -/
theorem exec_eq_calculate_of_op {i : Instr} (h : i.op ∈ [Op.or, .nand, .nor, .and, .add, .sub]) :
    ∃ o, ∀ s, exec i s = .next (calculate o s) := by
  cases i with
  | or | nand | nor | and | add | sub => exact ⟨_, fun _ => rfl⟩
  | imm | calcUnused6 | calcUnused7 | cp => simp [Instr.op] at h
  | never | eq | less | lessEq | always | notEq | greaterEq | greater => simp [Instr.op] at h

/-! ### The ALU's complement, sum and difference, as arithmetic -/

/-- The complement is of all 8 bits: 255 is the byte of ones (41_calculate.md R128). -/
theorem alu_nand_eq_255_sub (a b : W8) : alu .nand a b = 255 - (a &&& b) :=
  (BitVec.allOnes_sub_eq_not (a &&& b)).symm

theorem alu_nor_eq_255_sub (a b : W8) : alu .nor a b = 255 - (a ||| b) :=
  (BitVec.allOnes_sub_eq_not (a ||| b)).symm

theorem alu_add_eq_ofNat_mod (a b : W8) : alu .add a b = BitVec.ofNat 8 ((a.toNat + b.toNat) % 256) := by
  apply BitVec.eq_of_toNat_eq
  rw [alu, BitVec.toNat_add, BitVec.toNat_ofNat, Nat.mod_mod]

theorem alu_sub_eq_ofInt_mod (a b : W8) :
    alu .sub a b = BitVec.ofInt 8 (((a.toNat : Int) - (b.toNat : Int)) % 256) := by
  apply BitVec.eq_of_toNat_eq
  have := a.isLt
  have := b.isLt
  rw [alu, BitVec.toNat_sub, BitVec.toNat_ofInt]
  omega

/-- Subtraction adds the two's complement of the second operand (41_calculate.md R133). -/
theorem alu_sub_eq_add_not (a b : W8) : alu .sub a b = a + ~~~b + 1 := by
  rw [alu, BitVec.sub_eq_add_neg, BitVec.neg_eq_not_add, BitVec.add_assoc]
  rfl

end Sys2Proof.Machine

namespace Sys2Proof.Proofs

open Sys2Proof.Machine

/-- Settles O24: the instruction alone chooses the ALU operation, and `calculate` gives the rest. -/
theorem calculateIsAPureFunctionOfR1AndR2 : Obligations.CalculateIsAPureFunctionOfR1AndR2 := by
  unfold Obligations.CalculateIsAPureFunctionOfR1AndR2
  intro i s s' hop h1 h2
  obtain ⟨o, hexec⟩ := exec_eq_calculate_of_op hop
  refine ⟨_, _, hexec s, hexec s', ?_, ?_⟩
  · rw [calculate_eq, calculate_eq, h1, h2]
  · rw [calculate_eq]

/-- Settles O21: OR and AND are the ALU's own, NAND and NOR their complements. -/
theorem logicOperations : Obligations.LogicOperations := by
  unfold Obligations.LogicOperations
  refine ⟨fun x hx => ?_, fun x s => ⟨?_, ?_, ?_, ?_⟩⟩
  · exact ⟨decodeByte_ofNat_calculate (o := 0) rfl (by decide) hx,
      decodeByte_ofNat_calculate (o := 1) rfl (by decide) hx,
      decodeByte_ofNat_calculate (o := 2) rfl (by decide) hx,
      decodeByte_ofNat_calculate (o := 3) rfl (by decide) hx⟩
  · rw [exec_or, calculate_eq, alu]
  · rw [exec_nand, calculate_eq, alu_nand_eq_255_sub]
  · rw [exec_nor, calculate_eq, alu_nor_eq_255_sub]
  · rw [exec_and, calculate_eq, alu]

/-- Settles O22: the ALU's sum and difference, read modulo 256. -/
theorem addAndSub : Obligations.AddAndSub := by
  unfold Obligations.AddAndSub
  refine ⟨fun x hx => ?_, fun x s => ⟨?_, ?_, ?_⟩⟩
  · exact ⟨decodeByte_ofNat_calculate (o := 4) rfl (by decide) hx,
      decodeByte_ofNat_calculate (o := 5) rfl (by decide) hx⟩
  · rw [exec_add, calculate_eq, alu_add_eq_ofNat_mod]
  · rw [exec_sub, calculate_eq, alu_sub_eq_ofInt_mod]
  · rw [exec_sub, calculate_eq, alu_sub_eq_add_not]

end Sys2Proof.Proofs
end

section
/-! PROOFS. The statements about the Copies that name the input port, the output port or code 111 (42_copy.md section 3). -/

namespace Sys2Proof.Machine

open Sys2Proof.Safety

/-- A Copy's byte, as 42_copy.md section 3 writes it: one number for 128, 8 times the source code and the destination
code. -/
theorem decodeByte_ofNat_copy {n : Nat} {c d : RegCode} (hn : n = 128 + 8 * c.code + d.code) :
    decodeByte (BitVec.ofNat 8 n) = .cp c d := by
  rw [hn]
  exact decodeByte_encodeFields_copy c d

/-! ### The source read of code 111 by SRC7 (42_copy.md R146) -/

theorem srcRead_undef_of_zero {s : State} (h : s.src7 = .zero) : srcRead .undef s = (0x00, s) := by
  rw [srcRead, readUndef, h]

theorem srcRead_undef_of_draw {s : State} (h : s.src7 = .draw) :
    srcRead .undef s = (Config.draw s.draws, { s with draws := s.draws + 1 }) := by
  have hread : readUndef s = drawByte s := by rw [readUndef, h]
  exact hread

@[simp] theorem srcRead_pc (c : RegCode) (s : State) : (srcRead c s).2.pc = s.pc :=
  (copy_keeps c .undef s).1

/-! ### What a Copy does by its destination, for every source -/

/-- A Copy to a register: the value read arrives there, the history and the draw counter are as the read leaves them, and
all else but `pc` is unchanged. -/
theorem exec_cp_to_reg (c : RegCode) (b : Reg) (s : State) :
    ∃ t, exec (.cp c (.reg b)) s = .next t ∧ t.reg b = (srcRead c s).1 ∧ RegsKept [b] s t ∧ t.pc = s.pc + 1 ∧
      t.io = (srcRead c s).2.io ∧ t.draws = (srcRead c s).2.draws ∧ RunKept s t := by
  obtain ⟨hpc, hprog, hsrc7, hinputs⟩ := copy_keeps c (.reg b) s
  have hkept : RegsKept [b] s (dstWrite (.reg b) (srcRead c s).1 (srcRead c s).2).advance := fun r hr =>
    copy_reg_of_ne (fun e => List.ne_of_not_mem_cons hr (RegCode.reg.inj e).symm) c s
  refine ⟨_, exec_cp s c (.reg b), ?_, hkept, ?_, ?_, ?_, Proofs.runKept_of_eq hprog hsrc7 hinputs⟩
  · rw [advance_reg, dstWrite, setReg_reg_same]
  · rw [advance_pc, nextPc_eq_add_one, hpc]
  · rw [advance_io, dstWrite, setReg_io]
  · rw [advance_draws, dstWrite, setReg_draws]

/-- A Copy to the output port: one write event of the value read, after the read's own effect. -/
theorem exec_cp_to_port (c : RegCode) (s : State) :
    exec (.cp c .port) s = .next { (srcRead c s).2 with
      io := (srcRead c s).2.io ++ [.output (srcRead c s).1], pc := s.pc + 1 } := by
  rw [exec_cp, advance_eq, dstWrite, outWrite_pc, srcRead_pc, outWrite]

/-- A Copy to code 111: the read's own effect, and no write (R147, decision D5; log 10). -/
theorem exec_cp_to_undef (c : RegCode) (s : State) :
    exec (.cp c .undef) s = .next { (srcRead c s).2 with pc := s.pc + 1 } := by
  rw [exec_cp, advance_eq, dstWrite, dst7Action, srcRead_pc]

end Sys2Proof.Machine

namespace Sys2Proof.Proofs

open Sys2Proof.Machine

/-- Settles O27: the value read is the next input answer, and the read's own effect is the one event. -/
theorem copyInputToRegister : Obligations.CopyInputToRegister := by
  unfold Obligations.CopyInputToRegister
  intro b s
  have hbyte : 176 + (RegCode.reg b).code = 128 + 8 * RegCode.port.code + (RegCode.reg b).code := rfl
  exact ⟨decodeByte_ofNat_copy hbyte, exec_cp_to_reg .port b s⟩

/-- Settles O30: under either value of SRC7, the read of code 111 followed by each kind of destination. -/
theorem copyFromSource111 : Obligations.CopyFromSource111 := by
  unfold Obligations.CopyFromSource111
  refine ⟨fun b s hzero => ?_, fun s hzero => ⟨?_, exec_cp_undef_undef hzero⟩, fun b s hdraw => ?_,
    fun s hdraw => ⟨?_, ?_⟩⟩
  · have h := exec_cp_to_reg .undef b s
    rwa [srcRead_undef_of_zero hzero] at h
  · rw [exec_cp_to_port, srcRead_undef_of_zero hzero]
  · have h := exec_cp_to_reg .undef b s
    rwa [srcRead_undef_of_draw hdraw] at h
  · rw [exec_cp_to_port, srcRead_undef_of_draw hdraw]
  · rw [exec_cp_to_undef, srcRead_undef_of_draw hdraw]

/-- Settles O28: reading a register has no effect, so the one write event is all. -/
theorem copyRegisterToOutput : Obligations.CopyRegisterToOutput := by
  unfold Obligations.CopyRegisterToOutput
  intro a s
  have hbyte : 134 + 8 * (RegCode.reg a).code = 128 + 8 * (RegCode.reg a).code + RegCode.port.code := by
    have hport : RegCode.port.code = 6 := rfl
    omega
  exact ⟨decodeByte_ofNat_copy hbyte, exec_cp_to_port (.reg a) s⟩

/-- Settles O29: the read event comes before the write event of the same byte. -/
theorem copyInputToOutput : Obligations.CopyInputToOutput := by
  unfold Obligations.CopyInputToOutput
  refine ⟨decodeByte_ofNat_copy (n := 182) rfl, fun s => ?_⟩
  rw [exec_cp_to_port, srcRead, inRead, List.append_assoc]
  rfl

/-- Settles O31: what a Copy to code 111 does is its source read and the next `pc`. -/
theorem copyToDestination111 : Obligations.CopyToDestination111 := by
  unfold Obligations.CopyToDestination111
  exact ⟨exec_cp_reg_undef, exec_cp_to_undef .port, decodeByte_ofNat_copy (n := 183) rfl⟩

end Sys2Proof.Proofs
end

section
/-! PROOFS. The statements about the Conditions (43_condition.md). -/

namespace Sys2Proof

/-! ### A condition as a comparison of two integers -/

/-- The comparison a condition makes of one integer with another; `holds` is the comparison with zero
(`holds_eq_compares_zero`). -/
def CondCode.compares (c : CondCode) (m n : Int) : Bool :=
  match c with
  | .never => false
  | .eq => decide (m = n)
  | .less => decide (m < n)
  | .lessEq => decide (m ≤ n)
  | .always => true
  | .notEq => decide (m ≠ n)
  | .greaterEq => decide (n ≤ m)
  | .greater => decide (n < m)

/-- A comparison sees nothing but which of its two integers is the smaller. -/
theorem CondCode.compares_congr (c : CondCode) {m n m' n' : Int} (hlt : m < n ↔ m' < n')
    (hgt : n < m ↔ n' < m') : c.compares m n = c.compares m' n' := by
  cases c with
  | never | always => rfl
  | eq | less | lessEq | notEq | greaterEq | greater =>
    rw [compares, compares, decide_eq_decide]
    omega

/-- The conditions that compare by order. -/
def orderConditions : List CondCode := [.less, .lessEq, .greaterEq, .greater]

/-- Exchanging two different integers changes the answer of a comparison by order. -/
theorem CondCode.compares_swap_ne {c : CondCode} (hc : c ∈ orderConditions) {m n : Int} (h : m ≠ n) :
    c.compares n m ≠ c.compares m n := by
  cases c with
  | never | eq | always | notEq => simp [orderConditions] at hc
  | less | lessEq | greaterEq | greater =>
    rw [compares, compares, Ne, decide_eq_decide]
    omega

end Sys2Proof

namespace Sys2Proof.Machine

/-! ### The tests of R3 by Z and N (43_condition.md R161) -/

theorem holds_eq_iff (r : W8) : holds .eq r = true ↔ r = 0 := by simp [holds, isZero]

theorem holds_less_iff (r : W8) : holds .less r = true ↔ r.getLsbD 7 = true := Iff.rfl

theorem holds_lessEq_iff (r : W8) : holds .lessEq r = true ↔ r = 0 ∨ r.getLsbD 7 = true := by
  simp [holds, isZero, isNegative]

theorem holds_notEq_iff (r : W8) : holds .notEq r = true ↔ r ≠ 0 := by simp [holds, isZero]

theorem holds_greaterEq_iff (r : W8) : holds .greaterEq r = true ↔ r.getLsbD 7 = false := by
  simp [holds, isNegative]

theorem holds_greater_iff (r : W8) : holds .greater r = true ↔ r ≠ 0 ∧ r.getLsbD 7 = false := by
  simp [holds, isZero, isNegative]

/-! ### The tests of R3 by its signed reading and by the bits of the code (43_condition.md R161, R162) -/

theorem getLsbD_seven_iff_toNat (r : W8) : r.getLsbD 7 = true ↔ 128 ≤ r.toNat := by
  have hmsb : r.getLsbD 7 = r.msb := rfl
  rw [hmsb, BitVec.msb_eq_decide, decide_eq_true_eq]

theorem holds_eq_compares_zero (c : CondCode) (r : W8) : holds c r = c.compares r.toInt 0 := by
  cases c with
  | never | always => rfl
  | eq => rw [holds, isZero_eq_signed, signed_eq_toInt, CondCode.compares]
  | less => rw [holds, isNegative_eq_signed, signed_eq_toInt, CondCode.compares]
  | notEq => rw [holds, isZero_eq_signed, signed_eq_toInt, CondCode.compares, decide_not]
  | lessEq | greaterEq | greater =>
    simp only [holds, CondCode.compares, isZero_eq_signed, isNegative_eq_signed, signed_eq_toInt,
      ← Bool.decide_or, ← Bool.decide_and, ← decide_not, decide_eq_decide]
    omega

theorem holds_eq_xor_testBit (c : CondCode) (r : W8) : holds c r =
    Bool.xor ((c.code.testBit 0 && decide (r = 0)) || (c.code.testBit 1 && r.getLsbD 7)) (c.code.testBit 2) := by
  have hzero : isZero r = decide (r = 0) := rfl
  cases c <;> simp [holds, CondCode.code, hzero, isNegative, Nat.testBit]

/-! ### The tests of a SUB result (44_idioms.md R182, the caution) -/

/-- The 8-bit difference of two bytes whose signed difference fits compares with zero as the bytes compare. -/
theorem holds_sub_of_fits (c : CondCode) {a b : W8} (hlo : -128 ≤ a.toInt - b.toInt)
    (hhi : a.toInt - b.toInt ≤ 127) : holds c (alu .sub a b) = c.compares a.toInt b.toInt := by
  have hsub : (alu .sub a b).toInt = a.toInt - b.toInt := by
    rw [alu, BitVec.toInt_sub]
    exact Int.bmod_eq_of_le hlo (Int.lt_of_le_of_lt hhi (by decide))
  rw [holds_eq_compares_zero, hsub]
  exact c.compares_congr sub_neg sub_pos

/-- Where the signed difference does not fit, the wrap by 256 turns its sign: the bytes compare exchanged. -/
theorem holds_sub_of_wraps (c : CondCode) {a b : W8}
    (h : a.toInt - b.toInt < -128 ∨ 127 < a.toInt - b.toInt) :
    holds c (alu .sub a b) = c.compares b.toInt a.toInt := by
  have ha := BitVec.toInt_lt (x := a)
  have ha' := BitVec.le_toInt a
  have hb := BitVec.toInt_lt (x := b)
  have hb' := BitVec.le_toInt b
  have hsub : (alu .sub a b).toInt = (a.toInt - b.toInt).bmod 256 := BitVec.toInt_sub
  rw [holds_eq_compares_zero, hsub, Int.bmod_def]
  exact c.compares_congr (by omega) (by omega)

theorem holds_sub_ne_of_wraps {c : CondCode} (hc : c ∈ orderConditions) {a b : W8}
    (h : a.toInt - b.toInt < -128 ∨ 127 < a.toInt - b.toInt) :
    holds c (alu .sub a b) ≠ c.compares a.toInt b.toInt := by
  rw [holds_sub_of_wraps c h]
  exact CondCode.compares_swap_ne hc (by omega)

/-! ### The bytes and the meaning of a Condition -/

/-- A Condition's byte, with its ignored field, as 43_condition.md writes it: 192 and the condition code, plus 8 `x`. -/
theorem decodeByte_ofNat_condition {n c x : Nat} (hn : n = 192 + c) (hc : c < 8) (hx : x < 8) :
    decodeByte (BitVec.ofNat 8 (n + 8 * x)) = decodeCondition c x := by
  have hsum : n + 8 * x = 192 + 8 * x + c := by omega
  rw [hsum]
  exact decodeByte_encodeFields_condition hx hc

/-- A Condition jumps by any proposition its test of R3 is equivalent to. -/
theorem condition_eq_of_holds_iff {c : CondCode} {s : State} {P : Prop} [Decidable P] (h : holds c s.r3 = true ↔ P) :
    condition c s = { s with pc := if P then s.r0 else s.pc + 1 } := by
  rw [condition_eq, if_congr h rfl rfl]

end Sys2Proof.Machine

namespace Sys2Proof.Proofs

open Sys2Proof.Machine

/-- Settles O37: the conditions compare the signed difference with zero, and a difference that does not fit changes its
sign. -/
theorem signedComparisonAfterSub : Obligations.SignedComparisonAfterSub := by
  unfold Obligations.SignedComparisonAfterSub
  refine ⟨fun a b hlo hhi => ?_, fun a b h => ?_, fun a b => ⟨?_, ?_⟩, by decide, by decide⟩
  · exact ⟨holds_sub_of_fits .less hlo hhi, holds_sub_of_fits .lessEq hlo hhi,
      holds_sub_of_fits .greaterEq hlo hhi, holds_sub_of_fits .greater hlo hhi⟩
  · exact ⟨holds_sub_ne_of_wraps (c := .less) (by decide) h, holds_sub_ne_of_wraps (c := .lessEq) (by decide) h,
      holds_sub_ne_of_wraps (c := .greaterEq) (by decide) h, holds_sub_ne_of_wraps (c := .greater) (by decide) h⟩
  · rw [Bool.eq_iff_iff, holds_eq_iff, alu, sub_eq_zero, decide_eq_true_eq]
  · rw [Bool.eq_iff_iff, holds_notEq_iff, alu, sub_ne_zero, decide_eq_true_eq]

/-- Settles O39, by the five ways an instruction can end; only the last is a Condition. -/
theorem programCounterRule : Obligations.ProgramCounterRule := by
  unfold Obligations.ProgramCounterRule
  intro i s
  rcases exec_cases s i with
    ⟨v, rfl, h⟩ | ⟨o, hcond, h, -, -⟩ | ⟨hcond, h, -, -⟩ | ⟨c, d, rfl, h⟩ | ⟨c, hcond, h⟩
  · exact ⟨_, h, fun _ => rfl, nofun⟩
  · rw [calculate_eq] at h
    exact ⟨_, h, fun _ => rfl, by rw [hcond]; nofun⟩
  · rw [calculateUnused_eq] at h
    exact ⟨_, h, fun _ => rfl, by rw [hcond]; nofun⟩
  · obtain ⟨hpc, -, -, -⟩ := copy_keeps c d s
    exact ⟨_, h, fun _ => by rw [advance_pc, nextPc_eq_add_one, hpc], nofun⟩
  · rw [condition_eq] at h
    refine ⟨_, h, by rw [hcond]; nofun, fun c' hc' => ?_⟩
    obtain rfl : c = c' := Option.some.inj (hcond.symm.trans hc')
    exact ⟨rfl, fun hholds => if_pos hholds, fun hfails => if_neg (by rw [hfails]; nofun)⟩

/-- Settles O34: the bytes by their fields, the target by each condition's test of Z and N. -/
theorem conditionOutcomes : Obligations.ConditionOutcomes := by
  unfold Obligations.ConditionOutcomes
  refine ⟨fun x hx => ?_, fun x s => ⟨exec_never_eq_next_pc x s, ?_, ?_, ?_, ?_, ?_, ?_, ?_⟩⟩
  · exact ⟨decodeByte_ofNat_condition (c := 0) rfl (by decide) hx,
      decodeByte_ofNat_condition (c := 1) rfl (by decide) hx,
      decodeByte_ofNat_condition (c := 2) rfl (by decide) hx,
      decodeByte_ofNat_condition (c := 3) rfl (by decide) hx,
      decodeByte_ofNat_condition (c := 4) rfl (by decide) hx,
      decodeByte_ofNat_condition (c := 5) rfl (by decide) hx,
      decodeByte_ofNat_condition (c := 6) rfl (by decide) hx,
      decodeByte_ofNat_condition (c := 7) rfl (by decide) hx⟩
  · rw [exec_eq, condition_eq_of_holds_iff (holds_eq_iff s.r3)]
  · rw [exec_less, condition_eq_of_holds_iff (holds_less_iff s.r3)]
  · rw [exec_lessEq, condition_eq_of_holds_iff (holds_lessEq_iff s.r3)]
  · rw [exec_always, condition_eq]
    rfl
  · rw [exec_notEq, condition_eq_of_holds_iff (holds_notEq_iff s.r3)]
  · rw [exec_greaterEq, condition_eq_of_holds_iff (holds_greaterEq_iff s.r3)]
  · rw [exec_greater, condition_eq_of_holds_iff (holds_greater_iff s.r3)]

/-- Settles O35: Z and N, read as bounds of the unsigned value, fix the signed value. -/
theorem conditionTable : Obligations.ConditionTable := by
  unfold Obligations.ConditionTable
  intro r Z N
  have hZ : Z ↔ r.toNat = 0 := BitVec.toNat_eq
  have hN : N ↔ 128 ≤ r.toNat := getLsbD_seven_iff_toNat r
  have hsigned := BitVec.toInt_eq_toNat_cond r
  have hlt := r.isLt
  have heq : holds .eq r = true ↔ Z := holds_eq_iff r
  have hless : holds .less r = true ↔ N := holds_less_iff r
  have hlessEq : holds .lessEq r = true ↔ Z ∨ N := holds_lessEq_iff r
  have hnotEq : holds .notEq r = true ↔ ¬ Z := holds_notEq_iff r
  have hgreaterEq : holds .greaterEq r = true ↔ ¬ N := by rw [holds_greaterEq_iff, Bool.not_eq_true]
  have hgreater : holds .greater r = true ↔ ¬ Z ∧ ¬ N := by rw [holds_greater_iff, Bool.not_eq_true]
  rw [heq, hless, hlessEq, hnotEq, hgreaterEq, hgreater, hZ, hN]
  refine ⟨rfl, rfl, ?_⟩
  omega

/-- Settles O36: adding 4 to a code turns bit 2 and keeps bits 0 and 1. -/
theorem bitTwoInvertsTheCondition : Obligations.BitTwoInvertsTheCondition := by
  unfold Obligations.BitTwoInvertsTheCondition
  refine ⟨fun c c' r hcode => ?_, holds_eq_xor_testBit⟩
  have hbit : c'.code = 2 ^ 2 + c.code := by omega
  rw [holds_eq_xor_testBit c', holds_eq_xor_testBit c, hbit, Nat.testBit_two_pow_add_eq,
    Nat.testBit_two_pow_add_gt (by decide), Nat.testBit_two_pow_add_gt (by decide), Bool.xor_not]

end Sys2Proof.Proofs
end

section
/-! PROOFS. The statements about the idioms (44_idioms.md R183 to R185). -/

namespace Sys2Proof.Machine

open Sys2Proof.Safety

/-! ### The two bytes of a parking loop (44_idioms.md R185) -/

/-- A byte below 64 is the Immediate of its own value. -/
theorem decodeByte_of_lt {a : W8} (h : a.toNat < 64) : decodeByte a = .imm a.toNat := by
  have hbyte := decodeByte_ofNat_imm h
  rwa [BitVec.ofNat_toNat, BitVec.setWidth_eq] at hbyte

theorem decodeByte_196 : decodeByte 196 = .always 0 := decodeByte_encodeByte (i := .always 0) rfl

/-! ### A parking loop's two steps -/

/-- At its head the loop loads its own address into R0. -/
theorem step_of_parkedAt {a : W8} {s : State} (h : ParkedAt a s) : step s = .next { s with r0 := a, pc := a + 1 } := by
  obtain ⟨hlt, hhead, -, hpc⟩ := h
  have hfetch : s.fetch = some a := by rw [State.fetch, hpc, hhead]
  rw [step_of_fetch hfetch, decodeByte_of_lt hlt, exec_imm, BitVec.ofNat_toNat, BitVec.setWidth_eq, hpc]

/-- A fetched 196 jumps to the address in R0. -/
theorem step_of_fetch_196 {s : State} (h : s.fetch = some 196) : step s = .next { s with pc := s.r0 } := by
  rw [step_of_fetch h, decodeByte_196, exec_always, condition_eq]
  rfl

/-- Two steps from the head lead back to it. -/
theorem run_add_two_of_parkedAt {a : W8} {s : State} (h : ParkedAt a s) (k : Nat) :
    Host.Core.run Sys2Proof.core (k + 2) s = Host.Core.run Sys2Proof.core k { s with r0 := a, pc := a } := by
  rw [run_succ_of_step (k + 1) (step_of_parkedAt h)]
  obtain ⟨-, -, hjump, -⟩ := h
  exact run_succ_of_step k (step_of_fetch_196 hjump)

end Sys2Proof.Machine

namespace Sys2Proof.Proofs

open Sys2Proof.Machine Sys2Proof.Safety

/-- Settles O45, by induction on the rounds of the loop, from every state at its head. -/
theorem parkingLoopNeverLeaves : Obligations.ParkingLoopNeverLeaves := by
  unfold Obligations.ParkingLoopNeverLeaves
  intro n a
  induction n with
  | zero =>
    intro s h
    exact ⟨s, _, rfl, run_succ_of_step 0 (step_of_parkedAt h), h, rfl, rfl, rfl, rfl⟩
  | succ n ih =>
    intro s h
    have ⟨hlt, hhead, hjump, _⟩ := h
    have hround : ParkedAt a { s with r0 := a, pc := a } := ⟨hlt, hhead, hjump, rfl⟩
    obtain ⟨t, u, ht, hu, hend⟩ := ih _ hround
    exact ⟨t, u, (run_add_two_of_parkedAt h (2 * n)).trans ht, (run_add_two_of_parkedAt h (2 * n + 1)).trans hu, hend⟩

/-- Settles O46, by the loop's two positions: at its head the Immediate executes, after it the jump by R0. -/
theorem everyStepKeepsTheParkingLoop : Obligations.EveryStepKeepsTheParkingLoop := by
  unfold Obligations.EveryStepKeepsTheParkingLoop
  rintro a s ⟨hlt, hhead, hjump, hpc | ⟨hpc, hr0⟩⟩
  · have hnot : s.pc ≠ a + 1 := by simp [hpc]
    exact ⟨_, step_of_parkedAt ⟨hlt, hhead, hjump, hpc⟩, ⟨hlt, hhead, hjump, .inr ⟨rfl, rfl⟩⟩, fun _ => rfl,
      fun h => absurd h hnot, rfl, rfl⟩
  · have hnot : s.pc ≠ a := by simp [hpc]
    have hfetch : s.fetch = some 196 := by rw [State.fetch, hpc, hjump]
    exact ⟨_, step_of_fetch_196 hfetch, ⟨hlt, hhead, hjump, .inl hr0⟩, fun h => absurd h hnot, fun _ => hr0, hr0, rfl⟩

/-- Settles O25: XOR bit by bit, NOT because AND and OR of a byte with itself are the byte. -/
theorem xorAndNotFromTheAlu : Obligations.XorAndNotFromTheAlu := by
  unfold Obligations.XorAndNotFromTheAlu
  intro a b
  refine ⟨?_, ?_, ?_⟩
  · ext i hi
    simp only [alu, BitVec.getElem_and, BitVec.getElem_or, BitVec.getElem_not, BitVec.getElem_xor]
    cases a[i] <;> cases b[i] <;> rfl
  · rw [alu, BitVec.and_self]
  · rw [alu, BitVec.or_self]

end Sys2Proof.Proofs
end

section
/-! PROOFS. The statements about the ports (10_state.md section 6), and the events an instruction appends. -/

namespace Sys2Proof.Machine

open Sys2Proof.Safety

/-! ### The port events of a Copy -/

/-- The events of a source read (42_copy.md R141): one, of a read from code 110. -/
def readEvents (s : State) : RegCode → List IoEvent
  | .reg _ => []
  | .port => [.input s.nextInput]
  | .undef => []

/-- The events of a destination write (42_copy.md R142): one, of a write to code 110. -/
def writeEvents (v : W8) : RegCode → List IoEvent
  | .reg _ => []
  | .port => [.output v]
  | .undef => []

theorem srcRead_io (c : RegCode) (s : State) : (srcRead c s).2.io = s.io ++ readEvents s c := by
  rcases srcRead_cases c s with ⟨r, rfl, h⟩ | ⟨rfl, h⟩ | ⟨rfl, -, h⟩ | ⟨rfl, -, h⟩ <;> rw [h] <;> simp [readEvents]

theorem dstWrite_io (d : RegCode) (v : W8) (s : State) : (dstWrite d v s).io = s.io ++ writeEvents v d := by
  rcases dstWrite_cases d v s with ⟨r, rfl, h⟩ | ⟨rfl, h⟩ | ⟨rfl, h⟩ <;> rw [h] <;> simp [writeEvents]

/-- A Copy appends the events of its read, then those of its write. -/
theorem exec_cp_io (c d : RegCode) (s : State) : ∃ t v, exec (.cp c d) s = .next t ∧
    t.io = s.io ++ (readEvents s c ++ writeEvents v d) := by
  refine ⟨_, (srcRead c s).1, exec_cp s c d, ?_⟩
  rw [advance_io, dstWrite_io, srcRead_io, List.append_assoc]

/-- An instruction that is no Copy leaves the history alone. -/
theorem exec_io_of_ne_cp {i : Instr} (h : ∀ c d, i ≠ .cp c d) (s : State) :
    ∃ t, exec i s = .next t ∧ t.io = s.io := by
  obtain ⟨t, hexec, -, -, -, -, -, -, hio⟩ := Proofs.onlyTheListedInstructionsWrite i s
  refine ⟨t, hexec, ?_⟩
  by_contra hne
  obtain ⟨c, d, hcp, -⟩ := hio hne
  exact h c d hcp

theorem length_readEvents_le (s : State) (c : RegCode) : (readEvents s c).length ≤ 1 := by
  cases c <;> simp [readEvents]

theorem length_writeEvents_le (v : W8) (d : RegCode) : (writeEvents v d).length ≤ 1 := by
  cases d <;> simp [writeEvents]

@[simp] theorem ioOutputs_readEvents (s : State) (c : RegCode) : ioOutputs (readEvents s c) = [] := by
  cases c <;> rfl

@[simp] theorem ioInputs_writeEvents (v : W8) (d : RegCode) : ioInputs (writeEvents v d) = [] := by
  cases d <;> rfl

theorem ioInputs_readEvents_of_ne {c : RegCode} (h : c ≠ .port) (s : State) : ioInputs (readEvents s c) = [] := by
  cases c with
  | reg | undef => rfl
  | port => exact absurd rfl h

theorem ioOutputs_writeEvents_of_ne {d : RegCode} (h : d ≠ .port) (v : W8) : ioOutputs (writeEvents v d) = [] := by
  cases d with
  | reg | undef => rfl
  | port => exact absurd rfl h

/-! ### The history's input reads as the oracle's answers (10_state.md R40) -/

/-- The answers depend on the listed inputs alone, the k-th on k (decision D7; log 8). -/
theorem inputValue_congr {s t : State} (h : t.inputs = s.inputs) : t.inputValue = s.inputValue := by
  funext k
  rw [State.inputValue, State.inputValue, h]

theorem oracleHistory_of_no_read {s t : State} (hs : OracleHistory s) (hinputs : t.inputs = s.inputs)
    (hio : ioInputs t.io = ioInputs s.io) : OracleHistory t := by
  rw [OracleHistory, State.inputCount, inputValue_congr hinputs, hio]
  exact hs

theorem oracleHistory_of_read {s t : State} (hs : OracleHistory s) (hinputs : t.inputs = s.inputs)
    (hio : ioInputs t.io = ioInputs s.io ++ [s.nextInput]) : OracleHistory t := by
  have hcount : t.inputCount = s.inputCount + 1 := by rw [State.inputCount, hio, List.length_append]; rfl
  rw [OracleHistory, hcount, inputValue_congr hinputs, hio, List.range_succ, List.map_append, ← hs]
  rfl

end Sys2Proof.Machine

namespace Sys2Proof.Proofs

open Sys2Proof.Machine

/-- Settles O41: a Copy's events are those of its read and of its write, any other instruction has none. -/
theorem portEventsPerInstruction : Obligations.PortEventsPerInstruction := by
  unfold Obligations.PortEventsPerInstruction
  intro i s
  by_cases hcp : ∃ c d, i = .cp c d
  · obtain ⟨c, d, rfl⟩ := hcp
    obtain ⟨t, v, hexec, hio⟩ := exec_cp_io c d s
    have hin : ioInputs t.io = ioInputs s.io ++ ioInputs (readEvents s c) := by simp [hio, ioInputs_append]
    have hout : ioOutputs t.io = ioOutputs s.io ++ ioOutputs (writeEvents v d) := by simp [hio, ioOutputs_append]
    have hlen : (readEvents s c ++ writeEvents v d).length ≤ 2 := by
      rw [List.length_append]
      exact Nat.add_le_add (length_readEvents_le s c) (length_writeEvents_le v d)
    refine ⟨t, hexec, ⟨_, hio, hlen⟩, ?_⟩
    rw [hin, hout]
    refine ⟨fun d' h => ?_, fun h => ?_, fun c' h => ?_, fun h => ?_⟩
    · cases h
      rfl
    · rw [ioInputs_readEvents_of_ne (fun e => h d (by rw [e])), List.append_nil]
    · cases h
      exact ⟨v, rfl⟩
    · rw [ioOutputs_writeEvents_of_ne (fun e => h c (by rw [e])), List.append_nil]
  · have hne : ∀ c d, i ≠ .cp c d := fun c d e => hcp ⟨c, d, e⟩
    obtain ⟨t, hexec, hio⟩ := exec_io_of_ne_cp hne s
    refine ⟨t, hexec, ?_⟩
    rw [hio]
    exact ⟨⟨[], (List.append_nil _).symm, by decide⟩, fun d e => absurd e (hne _ d), fun _ => rfl,
      fun c e => absurd e (hne c _), fun _ => rfl⟩

end Sys2Proof.Proofs
end

section
/-! PROOFS. The statements about the instruction cycle (10_state.md section 2) and about reset (section 8). -/

namespace Sys2Proof.Machine

open Sys2Proof.Safety

/-- Everything a step can do: it stops at an unset byte, or the decoded instruction completes. -/
theorem step_cases (s : State) :
    (s.fetch = none ∧ step s = .fault (.fetchUnset s.pc)) ∨
    (∃ ir t, s.fetch = some ir ∧ exec (decodeByte ir) s = .next t ∧ step s = .next t) := by
  cases hfetch : s.fetch with
  | none => exact .inl ⟨rfl, step_of_unset hfetch⟩
  | some ir =>
    obtain ⟨t, hexec⟩ := exists_exec_eq_next (decodeByte ir) s
    exact .inr ⟨ir, t, rfl, hexec, (step_of_fetch hfetch).trans hexec⟩

/-- A step that answers a next state is the execution of some instruction. -/
theorem exists_exec_of_step {s t : State} (h : step s = .next t) : ∃ i, exec i s = .next t := by
  rcases step_cases s with ⟨-, hfault⟩ | ⟨ir, t', -, hexec, hstep⟩
  · rw [hfault] at h
    cases h
  · exact ⟨decodeByte ir, hexec.trans (hstep.symm.trans h)⟩

/-- No instruction writes the image or the run's parameters (20_memory.md R53; log 5). -/
theorem exec_keeps_run {i : Instr} {s t : State} (h : exec i s = .next t) :
    t.prog = s.prog ∧ t.src7 = s.src7 ∧ t.inputs = s.inputs := by
  obtain ⟨t', hexec, hprog, ⟨-, hsrc7, hinputs⟩, -⟩ := Proofs.noInstructionTouchesProgramMemory i s s.prog
  obtain rfl : t = t' := Host.Outcome.next.inj (h.symm.trans hexec)
  exact ⟨hprog, hsrc7, hinputs⟩

/-- An input read gets the oracle's next answer, so the history's reads stay its answers in order. -/
theorem exec_keeps_oracleHistory {i : Instr} {s t : State} (hs : OracleHistory s) (h : exec i s = .next t) :
    OracleHistory t := by
  obtain ⟨-, -, hinputs⟩ := exec_keeps_run h
  obtain ⟨t', hexec, -, hread, hnone, -, -⟩ := Proofs.portEventsPerInstruction i s
  obtain rfl : t = t' := Host.Outcome.next.inj (h.symm.trans hexec)
  by_cases hport : ∃ d, i = .cp .port d
  · obtain ⟨d, hi⟩ := hport
    exact oracleHistory_of_read hs hinputs (hread d hi)
  · exact oracleHistory_of_no_read hs hinputs (hnone fun d hi => hport ⟨d, hi⟩)

/-- With a total image a step completes, and the next state has the same image and parameters. -/
theorem step_of_imageComplete {s : State} (h : ImageComplete s.prog) :
    ∃ t, step s = .next t ∧ t.prog = s.prog ∧ t.src7 = s.src7 ∧ t.inputs = s.inputs := by
  rcases step_cases s with ⟨hunset, -⟩ | ⟨ir, t, -, hexec, hstep⟩
  · obtain ⟨b, hb⟩ := h s.pc
    cases hunset.symm.trans hb
  · exact ⟨t, hstep, exec_keeps_run hexec⟩

end Sys2Proof.Machine

namespace Sys2Proof.Proofs

open Sys2Proof.Machine Sys2Proof.Safety

/-- Settles O15, by induction on the number of steps, from every state with a total image. -/
theorem completeImageRunsForEver : Obligations.CompleteImageRunsForEver := by
  unfold Obligations.CompleteImageRunsForEver
  intro n
  induction n with
  | zero => exact fun s _ => ⟨s, rfl, rfl, rfl, rfl⟩
  | succ n ih =>
    intro s hs
    obtain ⟨u, hstep, hprog, hsrc7, hinputs⟩ := step_of_imageComplete hs
    have hu : ImageComplete u.prog := by rwa [hprog]
    obtain ⟨t, hrun, hprog', hsrc7', hinputs'⟩ := ih u hu
    exact ⟨t, (run_succ_of_step n hstep).trans hrun, hprog'.trans hprog, hsrc7'.trans hsrc7, hinputs'.trans hinputs⟩

/-- Settles O16: the executed instruction leaves the image alone and keeps the input reads in the oracle's order. -/
theorem stepKeepsTheInvariant : Obligations.StepKeepsTheInvariant := by
  unfold Obligations.StepKeepsTheInvariant
  rintro s t ⟨hwf, horacle⟩ hstep
  obtain ⟨i, hexec⟩ := exists_exec_of_step hstep
  obtain ⟨hprog, -, -⟩ := exec_keeps_run hexec
  exact ⟨by rw [hprog, hwf], exec_keeps_oracleHistory horacle hexec⟩

/-- Settles O13, by the two ways a step can end. -/
theorem stepStopsExactlyAtUnsetBytes : Obligations.StepStopsExactlyAtUnsetBytes := by
  unfold Obligations.StepStopsExactlyAtUnsetBytes
  refine fun s => ⟨step_of_unset, fun b hb => ?_, fun r hr => ?_⟩
  · obtain ⟨t, hexec⟩ := exists_exec_eq_next (decodeByte b) s
    exact ⟨t, (step_of_fetch hb).trans hexec⟩
  · rcases step_cases s with ⟨-, hfault⟩ | ⟨ir, t, -, -, hnext⟩
    · cases hfault.symm.trans hr
    · cases hnext.symm.trans hr

/-- Settles O12: what the byte decodes to is `decodeByte` of it. -/
theorem stepRunsTheDecodedInstruction : Obligations.StepRunsTheDecodedInstruction := by
  unfold Obligations.StepRunsTheDecodedInstruction
  intro s b i rest hb hdecode
  cases hdecode
  exact ⟨wf_decodeByte b, rfl, step_of_fetch hb⟩

/-- Settles O17: the image is the host's, and the empty history has no input read. -/
theorem launchMeetsTheInvariant : Obligations.LaunchMeetsTheInvariant := by
  unfold Obligations.LaunchMeetsTheInvariant
  exact ⟨fun _ _ _ _ _ _ _ _ _ hwf => ⟨hwf, rfl⟩, wf_reset, rfl⟩

/-- Settles O18: the fields are those of `State.launch`, and the first fetch is at address 0. -/
theorem resetState : Obligations.ResetState := by
  unfold Obligations.ResetState
  exact ⟨fun _ _ _ _ _ _ _ _ _ => ⟨rfl, rfl, rfl, rfl, rfl, rfl, rfl, rfl, rfl, fun _ hb => step_of_fetch hb⟩,
    [], Config.src7Default, 0, 0, 0, 0, 0, 0, rfl⟩

/-- Settles O40: 0xFF and one more is 0x00 modulo 256, and only a Condition that holds goes elsewhere. -/
theorem pcWrapsAfter255 : Obligations.PcWrapsAfter255 := by
  unfold Obligations.PcWrapsAfter255
  intro i s hpc hfails
  have hwrap : s.pc + 1 = 0x00 := by rw [hpc]; rfl
  obtain ⟨t, hexec, hnone, hsome⟩ := programCounterRule i s
  refine ⟨t, hexec, ?_⟩
  cases hcond : i.cond? with
  | none => exact (hnone hcond).trans hwrap
  | some c =>
    obtain ⟨-, -, hstay⟩ := hsome c hcond
    exact (hstay (hfails c hcond)).trans hwrap

end Sys2Proof.Proofs
end

section
/-! PROOFS. The statements about a Copy between registers (42_copy.md section 1), the unused Calculates
(41_calculate.md R132) and the spec's sample bytes (95_test_vectors.md). -/

namespace Sys2Proof

/-- The byte of a well-formed instruction, alone, decodes to the instruction. -/
theorem decode_singleton_of_encodeByte {i : Instr} {b : W8} (hwf : i.wf = true) (hb : encodeByte i = b) :
    decode [b] = .ok (i, []) := by
  rw [decode, ← hb, decodeByte_encodeByte hwf]

end Sys2Proof

namespace Sys2Proof.Proofs

open Sys2Proof.Machine

/-- Settles O26: reading a register has no effect, and writing back its own value none either. -/
theorem copyRegisterToRegister : Obligations.CopyRegisterToRegister := by
  unfold Obligations.CopyRegisterToRegister
  intro a b s
  obtain ⟨t, hexec, hdst, hregs, hpc, hio, hdraws, hrun⟩ := exec_cp_to_reg (.reg a) b s
  refine ⟨t, hexec, hdst, hregs, hpc, hio, hdraws, hrun, ?_⟩
  rintro rfl
  exact Host.Outcome.next.inj (hexec.symm.trans (exec_cp_self a s))

/-- Settles O23: the bytes by their operation codes 110 and 111, the effect by what an unused Calculate does. -/
theorem unusedCalculateDrawsR3 : Obligations.UnusedCalculateDrawsR3 := by
  unfold Obligations.UnusedCalculateDrawsR3
  refine ⟨fun x hx => ?_, fun x s => ⟨?_, ?_⟩⟩
  · exact ⟨decodeByte_ofNat_calculate (o := 6) rfl (by decide) hx,
      decodeByte_ofNat_calculate (o := 7) rfl (by decide) hx⟩
  · rw [exec_calcUnused6, calculateUnused_eq]
  · rw [exec_calcUnused7, calculateUnused_eq]

/-- Settles O5: each sample is the byte of its instruction. -/
theorem specSampleBytesDecode : Obligations.SpecSampleBytesDecode := by
  unfold Obligations.SpecSampleBytesDecode
  refine ⟨?_, ?_, ?_, ?_, ?_, ?_, ?_, ?_, ?_⟩ <;> exact decode_singleton_of_encodeByte rfl rfl

end Sys2Proof.Proofs
end
